-- ==== Sys2Proof/Word.lean ====
section
/-! DEFINITION. The word types of XN297E: bytes, 16-bit values, the five-byte register block and the three legal
address lengths (00_scope.md R5, R8; 10_state.md R11, R14, R17). -/

namespace Sys2Proof

/-- 8 bits, numbered 7 down to 0 (R8). -/
abbrev Byte := BitVec 8

/-- 16 bits: the CRC register and one element of `XOROUT` (R5, R18). -/
abbrev Half := BitVec 16

/-- The content of a file of five 8-bit registers, element 0 first: `ADDR[0 .. 4]` (R11), `TXA[0 .. 4]` (R17). -/
structure Bytes5 where
  b0 : Byte
  b1 : Byte
  b2 : Byte
  b3 : Byte
  b4 : Byte
deriving DecidableEq, Repr, Inhabited

/-- The five bytes in index order. -/
def Bytes5.toList (v : Bytes5) : List Byte := [v.b0, v.b1, v.b2, v.b3, v.b4]

/-- The effective address length. "Legal values 3, 4, 5; no other value is ever stored" (R14), so no other value can be
written down. -/
inductive AddrLen where
  | three
  | four
  | five
deriving DecidableEq, Repr, Inhabited

/-- The length as a number. -/
def AddrLen.toNat : AddrLen → Nat
  | .three => 3
  | .four => 4
  | .five => 5

end Sys2Proof
end

