-- ==== Sys2Proof/Syntax.lean ====
section
/-! DEFINITION. The commands of XN297E, one constructor per row of spec/opcode_table.json (30_encoding.md R48, R49), with
their mnemonics (R55), the two pseudo-instructions and the recorded expansion of `send_command` (R56). -/

namespace Sys2Proof

/-- One command with its operands in the order of R49. -/
inductive Instr where
  /-- `BITREV b` (opcode 0x01). -/
  | bitrev (b : Byte)
  /-- `WHITEN b, i` (opcode 0x02). -/
  | whiten (b : Byte) (i : Byte)
  /-- `CRC alen, plen, off, len, buf...` (opcode 0x03). -/
  | crc (alen : Byte) (plen : Byte) (off : Byte) (len : Byte) (buf : List Byte)
  /-- `INIT` (opcode 0x10). -/
  | init
  /-- `CFGADDR a0 a1 a2 a3 a4, alen` (opcode 0x11). -/
  | cfgaddr (a : Bytes5) (alen : Byte)
  /-- `SETCRC e` (opcode 0x12). -/
  | setcrc (e : Byte)
  /-- `SEND p0 ... p(n-1)` (opcode 0x20): the operand `n` is the count of payload bytes (R55). -/
  | send (payload : List Byte)
  /-- `RDCNT` (opcode 0x30). -/
  | rdcnt
deriving DecidableEq, Repr

/-- The mnemonic of a command (R48, R55). -/
def Instr.mnemonic : Instr → String
  | .bitrev _ => "BITREV"
  | .whiten _ _ => "WHITEN"
  | .crc _ _ _ _ _ => "CRC"
  | .init => "INIT"
  | .cfgaddr _ _ => "CFGADDR"
  | .setcrc _ => "SETCRC"
  | .send _ => "SEND"
  | .rdcnt => "RDCNT"

/-- One hexadecimal digit (R55). -/
def hexDigit (n : Nat) : String := ("0123456789ABCDEF".toList[n]?.getD '0').toString

/-- A byte as two hexadecimal digits without `0x`, as it stands in a byte string (R55). -/
def hexByte (b : Byte) : String := hexDigit (b.toNat / 16) ++ hexDigit (b.toNat % 16)

/-- Bytes that form a byte string (R55). -/
def hexBytes (bs : List Byte) : String := String.intercalate " " (bs.map hexByte)

/-- A command as this spec writes it: its mnemonic followed by its operands (R55). -/
def Instr.asm (i : Instr) : String :=
  let operands := match i with
    | .bitrev b => ["0x" ++ hexByte b]
    | .whiten b k => ["0x" ++ hexByte b, toString k.toNat]
    | .crc alen plen off len buf =>
      [toString alen.toNat, toString plen.toNat, toString off.toNat, toString len.toNat] ++
        if buf.isEmpty then [] else [hexBytes buf]
    | .init | .rdcnt => []
    | .cfgaddr a alen => [hexBytes a.toList, toString alen.toNat]
    | .setcrc e => [toString e.toNat]
    | .send payload => if payload.isEmpty then [] else [hexBytes payload]
  if operands.isEmpty then i.mnemonic else i.mnemonic ++ " " ++ String.intercalate ", " operands

/-- The pseudo-instruction `CRCON` (R56). -/
def Instr.crcon : Instr := .setcrc 1

/-- The pseudo-instruction `CRCOFF` (R56). -/
def Instr.crcoff : Instr := .setcrc 0

/-- What `send_command(command_byte, repeat)` of the layer above expands to (R56): one SEND, or six that carry the same
rolling index. It is not a command of the block, and its spacing in time is not the block's (R140). -/
def sendCommandExpansion (f0 f1 f2 f3 idx commandByte : Byte) (burst : Bool) : List Instr :=
  List.replicate (if burst then 6 else 1) (.send [f0, f1, f2, f3, idx, commandByte])

end Sys2Proof
end

