-- ==== Sys2Proof/WellFormed.lean ====
section
/-! DEFINITION. Which command terms have an encoding: the length operands agree with the data that follows them
(30_encoding.md R49, R51). An operand value a command refuses (an `alen` of 7, a SETCRC operand of 2) is well formed: its own
rule answers it (R53, R57). -/

namespace Sys2Proof

/-- CRC carries `off + len` data bytes; SEND's payload length fits its length byte; every other command has fixed fields. -/
def Instr.wf : Instr → Bool
  | .crc _ _ off len buf => buf.length == off.toNat + len.toNat
  | .send payload => decide (payload.length < 256)
  | .bitrev _ | .whiten _ _ | .init | .cfgaddr _ _ | .setcrc _ | .rdcnt => true

end Sys2Proof
end

