-- ==== Sys2Proof/Decode.lean ====
section
/-! DEFINITION. The decoder of format CMD8, total on every byte string and refusing by name (30_encoding.md R45 to R57), the
encoder, and the host's reading of one opcode-table word. -/

namespace Sys2Proof

/-- The eight opcodes of R48. -/
inductive Opcode where
  | bitrev
  | whiten
  | crc
  | init
  | cfgaddr
  | setcrc
  | send
  | rdcnt
deriving DecidableEq, Repr

/-- Why a message is no command (R57, cases 1 to 3). Each is answered `ILLEGAL`. -/
inductive DecodeError where
  /-- The message is empty (R54). -/
  | emptyMessage
  /-- The opcode is reserved (R52). -/
  | reservedOpcode (op : Byte)
  /-- The length is not the one the opcode and its length operands demand (R51, R54). -/
  | wrongLength (op : Opcode)
deriving DecidableEq, Repr

/-- The opcode map of R48, one row per opcode. The match is on all 8 bits. -/
def opcodeTable : List (Byte × Opcode) :=
  [(0x01, .bitrev), (0x02, .whiten), (0x03, .crc), (0x10, .init), (0x11, .cfgaddr), (0x12, .setcrc), (0x20, .send),
   (0x30, .rdcnt)]

/-- The opcode byte `cmd[0]` selects, if it is not reserved (R48, R52). -/
def opcodeOf (b : Byte) : Option Opcode := opcodeTable.lookup b

/-- The length a message of this opcode must have (R51, the "total length L" column of R49), `none` when the message is too
short to hold its own length operands. `operands` is `cmd[1 ..]`. -/
def demandedLength (op : Opcode) (operands : List Byte) : Option Nat :=
  match op with
  | .bitrev => some 2
  | .whiten => some 3
  | .crc =>
    match operands with
    | _ :: _ :: off :: len :: _ => some (5 + off.toNat + len.toNat)
    | _ => none
  | .init => some 1
  | .cfgaddr => some 7
  | .setcrc => some 2
  | .send =>
    match operands with
    | n :: _ => some (2 + n.toNat)
    | [] => none
  | .rdcnt => some 1

/-- The command a message of a known opcode and the demanded length stands for: the operands in `cmd` order, each one
unsigned byte (R49, R50). -/
def operandFields (op : Opcode) (operands : List Byte) : Option Instr :=
  match op, operands with
  | .bitrev, [b] => some (.bitrev b)
  | .whiten, [b, i] => some (.whiten b i)
  | .crc, alen :: plen :: off :: len :: buf => some (.crc alen plen off len buf)
  | .init, [] => some .init
  | .cfgaddr, [a0, a1, a2, a3, a4, alen] => some (.cfgaddr ⟨a0, a1, a2, a3, a4⟩ alen)
  | .setcrc, [e] => some (.setcrc e)
  | .send, _ :: payload => some (.send payload)
  | .rdcnt, [] => some .rdcnt
  | _, _ => none

/-- The decoder (R57): the tests stand in the order of the rule's cases. -/
def decode (msg : List Byte) : Except DecodeError Instr :=
  match msg with
  | [] => .error .emptyMessage
  | b :: operands =>
    match opcodeOf b with
    | none => .error (.reservedOpcode b)
    | some op =>
      if demandedLength op operands = some msg.length then
        match operandFields op operands with
        | some i => .ok i
        | none => .error (.wrongLength op)
      else .error (.wrongLength op)

/-- The message of a command, from the "`cmd` layout" column of R49. SEND's length byte is the count of its payload. -/
def encode : Instr → List Byte
  | .bitrev b => [0x01, b]
  | .whiten b i => [0x02, b, i]
  | .crc alen plen off len buf => 0x03 :: alen :: plen :: off :: len :: buf
  | .init => [0x10]
  | .cfgaddr a alen => [0x11, a.b0, a.b1, a.b2, a.b3, a.b4, alen]
  | .setcrc e => [0x12, e]
  | .send payload => 0x20 :: BitVec.ofNat 8 payload.length :: payload
  | .rdcnt => [0x30]

/-- Byte `k` of a table word: bits `8k+7 .. 8k`, the first byte of the message being the lowest. -/
def tableByte (nbits w k : Nat) : Byte := BitVec.ofNat 8 ((w % 2 ^ nbits) >>> (8 * k))

/-- The message a table word stands for. The table may stop short of the message's end; every later byte is 0, up to the
length the opcode and its length operands demand (R51), which the port's framing supplies (R45; DESIGN CHOICE, assumption 8). -/
def tableMessage (nbits w : Nat) : List Byte :=
  let header := (List.range 5).map (tableByte nbits w)
  let demanded :=
    match opcodeOf (tableByte nbits w 0) with
    | some op => (demandedLength op header.tail).getD 0
    | none => 0
  (List.range (max demanded (nbits / 8))).map (tableByte nbits w)

/-- The instruction the decoder reads from an opcode-table word. -/
def decodeTableWord (nbits w : Nat) : Option Instr :=
  match decode (tableMessage nbits w) with
  | .ok i => some i
  | .error _ => none

end Sys2Proof
end

