-- ==== Sys2Proof/Config.lean ====
section
/-! DEFINITION. What is fixed for one XN297E block: the constants the spec states (00_scope.md R5), the sizes it decides
(R6: FB_SIZE, PKTCNT_WIDTH), and the parameters it leaves open (R6: both tables, PREAMBLE_ADDR, the radio settings), which
stand as ONE constant without a body; and the free answer of the radio. -/

namespace Sys2Proof.Config

/-- `CRC_POLY` (R5). -/
def crcPoly : Half := 0x1021

/-- `CRC_INIT` (R5): the seed for every payload length (R72, decision D6; assumption 11). -/
def crcInit : Half := 0xB5D2

/-- `FILLER` (R5). -/
def filler : Byte := 0x55

/-- `ALEN_MIN` (R5). -/
def alenMin : Nat := 3

/-- `ALEN_MAX` (R5). -/
def alenMax : Nat := 5

/-- `ADDR_BYTES` (R5). -/
def addrBytes : Nat := 5

/-- `CRC_BYTES` (R5). -/
def crcBytes : Nat := 2

/-- `FB_SIZE` (R6, decision D11; assumption 12). -/
def fbSize : Nat := 32

/-- `PKTCNT_WIDTH` (R6, decision D10; assumption 12). -/
abbrev pktcntWidth : Nat := 32

/-- The open parameters of R6. The shape carries the two constraints of R7 on the tables: `SCRAMBLE_LEN >= 32` and
`XOROUT_LEN >= 1` hold of every value of this type. -/
structure Params where
  /-- `SCRAMBLE[0 .. 31]`: "32+-entry", at least 32 entries (R6). -/
  scrambleBase : Vector Byte 32
  /-- `SCRAMBLE[32 ..]`, however many there are. -/
  scrambleMore : List Byte
  /-- `XOROUT[0]`. -/
  xoroutBase : Half
  /-- `XOROUT[1 ..]`, however many there are. -/
  xoroutMore : List Half
  /-- `PREAMBLE_ADDR(3)`. -/
  preamble3 : Bytes5
  /-- `PREAMBLE_ADDR(4)`. -/
  preamble4 : Bytes5
  /-- `PREAMBLE_ADDR(5)`. -/
  preamble5 : Bytes5
  /-- `CHANNEL`, an opaque setting the block only passes on; a number by DESIGN CHOICE (assumption 6). -/
  channel : Nat
  /-- `DATARATE`, as `CHANNEL`. -/
  dataRate : Nat
  /-- `PALEVEL`, as `CHANNEL`. -/
  paLevel : Nat
  /-- `RADIO_PSIZE` (R6; conflict C1, decision D30). -/
  radioPsize : Nat
deriving DecidableEq, Repr, Inhabited

/-- The whole scramble table, `SCRAMBLE[0 .. SCRAMBLE_LEN-1]` (R6, R18). -/
def Params.scramble (p : Params) : List Byte := p.scrambleBase.toList ++ p.scrambleMore

/-- The whole XOR-out table, `XOROUT[0 .. XOROUT_LEN-1]` (R6, R18). -/
def Params.xorout (p : Params) : List Half := p.xoroutBase :: p.xoroutMore

/-- `PREAMBLE_ADDR(alen)` (R6, R84). -/
def Params.preambleAddr (p : Params) : AddrLen → Bytes5
  | .three => p.preamble3
  | .four => p.preamble4
  | .five => p.preamble5

/-- The parameters of this block. The source prints none of them (R6, decisions D7, D8, D16, D17), so nothing can be proved
of their values: what is proved of the block holds for every instantiation (assumption 1). -/
opaque params : Params

/-- The radio's Boolean answer to its call number `n` when the environment has placed no reply: a free value (R123,
decision D18), applied to a plain counter of `State` (assumption 2). -/
opaque radioAnswer : Nat → Bool

/-- PRESUMED: the general-knowledge instantiation of the tables (93_implementation_defined.md G1, G2, G4), "an assumption
with a name, never a fact of the source". The machine does not use it; the tests on 95_test_vectors.md's [G1/G2] columns do.
The four radio settings have no value even there and stand at 0 (assumption 18). -/
def generalKnowledge : Params where
  scrambleBase := #v[
    0xE3, 0xB1, 0x4B, 0xEA, 0x85, 0xBC, 0xE5, 0x66, 0x0D, 0xAE, 0x8C, 0x88, 0x12, 0x69, 0xEE, 0x1F,
    0xC7, 0x62, 0x97, 0xD5, 0x0B, 0x79, 0xCA, 0xCC, 0x1B, 0x5D, 0x19, 0x10, 0x24, 0xD3, 0xDC, 0x3F]
  scrambleMore := [0x8E, 0xC5, 0x2F]
  xoroutBase := 0x0000
  xoroutMore := [
    0x3448, 0x9BA7, 0x8BBB, 0x85E1, 0x3E8C, 0x451E, 0x18E6, 0x6B24, 0xE7AB, 0x3828, 0x814B, 0xD461, 0xF494, 0x2503,
    0x691D, 0xFE8B, 0x9BA7, 0x8B17, 0x2920, 0x8B5F, 0x61B1, 0xD391, 0x7401, 0x2138, 0x129F, 0xB3A0, 0x2988]
  preamble3 := ⟨0x0F, 0x71, 0x0C, 0x00, 0x00⟩
  preamble4 := ⟨0x55, 0x0F, 0x71, 0x0C, 0x00⟩
  preamble5 := ⟨0x55, 0x0F, 0x71, 0x0C, 0x00⟩
  channel := 0
  dataRate := 0
  paLevel := 0
  radioPsize := 0

end Sys2Proof.Config
end

