-- ==== Sys2Proof/Machine/State.lean ====
section
/-! DEFINITION. The state of XN297E (10_state.md R11 to R22), the two ports' plain data beside it (the host's script, the
responses, the radio's answers and the history of radio calls), the reasons a step can stop, and the state after reset. -/

namespace Sys2Proof.Machine

/-- `PHASE` (R15). -/
inductive Phase where
  /-- Reset state; the radio has not been configured. -/
  | uninit
  /-- The radio answered `begin` with true and is in raw mode; no address yet. -/
  | inited
  /-- The address is configured; SEND is admitted. -/
  | ready
  /-- The radio answered `begin` with false. -/
  | failed
deriving DecidableEq, Repr

/-- The status of a response (R110); the code of each stands in Machine/Ops.lean. -/
inductive Status where
  | ok
  | txFail
  | cfgErr
  | badPhase
  | range
  | illegal
  | failed
deriving DecidableEq, Repr

/-- One call on the radio port with its arguments (R122). `begin` and `write` carry the answer the radio gave. -/
inductive RadioEvent where
  | begin (answer : Bool)
  | setChannel (c : Nat)
  | setDataRate (r : Nat)
  | setAutoAck (on : Bool)
  | disableCRC
  | setRetries (delay : Nat) (count : Nat)
  | setPALevel (p : Nat)
  | setPayloadSize (s : Nat)
  | setAddressWidth (w : Nat)
  | writeTxAddress (t : Bytes5)
  | write (frame : List Byte) (answer : Bool)
deriving DecidableEq, Repr

/-- What the radio does with one call, placed by the environment. -/
inductive RadioReply where
  /-- The call returns, with this Boolean; only `begin` and `write` look at it (R122, R123). -/
  | answer (b : Bool)
  /-- The call, whichever of R122 it is, never returns (R125; 93_implementation_defined.md U14). -/
  | never
deriving DecidableEq, Repr

/-- One move of the host (R142): the reset event, or one message on the command port. -/
inductive HostMove where
  | reset
  | command (msg : List Byte)
deriving DecidableEq, Repr

/-- The frame buffer `FB` as (index, byte) pairs: indices strictly rising, only written cells listed. An index that is not
listed is a cell that "holds no value" (R21, R22). DEDUCED, assumption 7. -/
abbrev Memory := List Host.Cell

/-- The canonical form of the frame buffer: indices strictly rising, all of them below `FB_SIZE` (R18, R30). An unlisted
index holds no value, so no listed entry can equal what an unlisted one reads as. -/
abbrev Memory.wf (m : Memory) : Prop := m.Pairwise (fun c d => c.1 < d.1) ∧ ∀ c ∈ m, c.1 < Config.fbSize

/-- Why the machine stops. Each is safe: the model stops and no claim about a later state can be proved from it. -/
inductive Fault where
  /-- A read of a cell that holds no value, raised by SEND (R22: "A model must make a read of an unwritten cell a fault, not a
  zero"; decision D19, U15). Safe. No state that meets `State.Inv` (Safety.lean) raises it, so no run from reset does. -/
  | unwrittenRead
  /-- An access to an index one of the three index spaces of R30 does not have, raised by SEND's accesses to `SCRAMBLE`,
  `XOROUT` and `FB`. Safe. No state raises it, since the checks of R88 come first. DESIGN CHOICE, assumption 16. -/
  | indexOutsideSpace
  /-- A radio call that never returns, raised by INIT (`begin` and its seven configuration calls), CFGADDR (its two calls) and
  SEND (`write`): "the block is stuck in that command" (R125, U14). Safe. Only a `RadioReply.never` the environment placed
  raises it. DEDUCED, assumption 3. No reset event follows it: DESIGN CHOICE, assumption 20. -/
  | radioNeverReturns
deriving DecidableEq, Repr

/-- Why a step has no meaning. -/
inductive Refusal where
  /-- An instruction with no meaning yet, raised by an arm of `exec` alone. Safe. No arm raises it. -/
  | notModelled (mnemonic : String)
deriving DecidableEq, Repr

/-- The state: first the block's own (R11 to R19), then the plain data of its two ports. -/
structure State where
  /-- `PHASE` (R15). -/
  phase : Phase
  /-- `CRCEN` (R13): true is 1. -/
  crcen : Bool
  /-- `PKTCNT` (R16). -/
  pktcnt : BitVec Config.pktcntWidth
  /-- `ADDR[0 .. 4]`, written all five at once (R11); `none` is the spec's own state "unwritten (no value)" (R21).
  DEDUCED, assumption 7. -/
  addr : Option Bytes5
  /-- `ALEN` (R14); `none` is "unwritten (no value)", the value R21's table gives it after reset (assumption 7). -/
  alen : Option AddrLen
  /-- `TXA[0 .. 4]`, written all five at once (R17); `none` is "unwritten (no value)", the value R21's table gives it after
  reset (assumption 7). -/
  txa : Option Bytes5
  /-- `FB` (R18). -/
  fb : Memory
  /-- `FLEN`, a number in 0 .. `FB_SIZE` (R18). -/
  flen : Nat
  /-- The model's own: the host's moves still to come, next first (R10, R136, R142). DESIGN CHOICE, assumption 4. -/
  inbox : List HostMove
  /-- The model's own: the responses given since the last reset, oldest first (R47, R141). DESIGN CHOICE, assumption 5. -/
  responses : List (List Byte)
  /-- The radio-port calls made since the last reset, oldest first: "A model records the calls as an event history in this
  order" (R43, R141). DESIGN CHOICE, assumption 5. -/
  radioLog : List RadioEvent
  /-- The model's own: the replies the environment has placed for the radio's next calls, one for each, next first (R123,
  R125). DESIGN CHOICE, assumption 2. -/
  radioScript : List RadioReply
  /-- The model's own: how many radio calls have returned; the free answer is `Config.radioAnswer` of it.
  DESIGN CHOICE, assumption 2. -/
  draws : Nat
deriving DecidableEq, Repr

/-- The state after reset: every field of the block as R21 has it; no call has been made (R130). The model's own fields are
empty and 0: DESIGN CHOICE, assumption 9. -/
def State.reset : State where
  phase := .uninit
  crcen := true
  pktcnt := 0
  addr := none
  alen := none
  txa := none
  fb := []
  flen := 0
  inbox := []
  responses := []
  radioLog := []
  radioScript := []
  draws := 0

end Sys2Proof.Machine
end

