-- ==== Sys2Proof/Machine/Ops.lean ====
section
/-! DEFINITION. The named operations every meaning is written over: the configuration in force, the status codes, the
response (which stands where another machine takes an exception: R117), the radio port, the frame buffer, the two constant
tables, the byte order, the host's moves. -/

namespace Sys2Proof.Machine

/-- The parameters the machine runs under (R6). -/
def config : Config.Params := Config.params

/-- The code of a status in `rsp[0]` (R110, decision D3). -/
def Status.code : Status → Byte
  | .ok => 0x00
  | .txFail => 0x01
  | .cfgErr => 0x02
  | .badPhase => 0x03
  | .range => 0x04
  | .illegal => 0x05
  | .failed => 0x06

/-- `respond(status, bytes)` (R8, R47): one byte string on the response port, the status first. It saves nothing, changes no
mode and redirects nothing: "Trap entry and return: there is none" (R117). -/
def respond (st : Status) (bytes : List Byte) (s : State) : State :=
  { s with responses := s.responses ++ [st.code :: bytes] }

/-- `refuse(status)` (R8): the status alone, and no state written by the command (R115). -/
def refuse (st : Status) (s : State) : State := respond st [] s

/-- A 16-bit value on a port or in a frame: most significant byte first (R34 (a), (d)). -/
def bigEndian16 (v : Half) : List Byte := [v.extractLsb' 8 8, v.extractLsb' 0 8]

/-- A 32-bit value on the response port: most significant byte first (R34 (d), R104). -/
def bigEndian32 (v : BitVec 32) : List Byte :=
  [v.extractLsb' 24 8, v.extractLsb' 16 8, v.extractLsb' 8 8, v.extractLsb' 0 8]

/-- Calls on the radio port that have returned, in order, after all earlier ones (R43, R122). -/
def record (calls : List RadioEvent) (s : State) : State := { s with radioLog := s.radioLog ++ calls }

/-- `n` of the radio's replies used up, whatever they said. -/
def dropReplies (n : Nat) (s : State) : State :=
  { s with radioScript := s.radioScript.drop n, draws := s.draws + n }

/-- Calls whose return carries no answer the block uses (the last column of R122's table): each returns, which uses up one
reply, and is recorded. -/
def emit (calls : List RadioEvent) (s : State) : State := record calls (dropReplies calls.length s)

/-- Whether one of the radio's next `n` calls never returns (R125, U14). -/
def radioHangs (n : Nat) (s : State) : Bool := (s.radioScript.take n).contains .never

/-- The answer to `begin` or `write` (R123): the reply the environment placed, or a free Boolean when it placed none. A call
that never returns stops the machine (R125). -/
def askRadio (s : State) : Except Fault (Bool × State) :=
  match s.radioScript with
  | [] => .ok (Config.radioAnswer s.draws, { s with draws := s.draws + 1 })
  | .answer b :: rest => .ok (b, { s with radioScript := rest, draws := s.draws + 1 })
  | .never :: _ => .error .radioNeverReturns

/-- The value of a cell that may be unwritten: reading an unwritten one is a fault, "not a zero" (R22). -/
def written {α : Type} (r : Option α) : Except Fault α :=
  match r with
  | some v => .ok v
  | none => .error .unwrittenRead

/-- `ROM_S(i)` (R8): entry `i` of `SCRAMBLE`, `none` when the table has no such entry (R31, R39). -/
def romS (p : Config.Params) (i : Nat) : Option Byte := p.scramble[i]?

/-- `ROM_X(k)` (R8): entry `k` of `XOROUT`, `none` when the table has no such entry (R32, R39). -/
def romX (p : Config.Params) (k : Nat) : Option Half := p.xorout[k]?

/-- An access SEND has already checked: an index its space does not have is a fault, never a default value (R74, R135). -/
def inSpace {α : Type} (r : Option α) : Except Fault α :=
  match r with
  | some v => .ok v
  | none => .error .indexOutsideSpace

/-- The byte an index of the frame buffer holds, `none` when the cell is unwritten. -/
def readCell : Memory → Nat → Option Byte
  | [], _ => none
  | (a, v) :: m, x => if a = x then some v else readCell m x

/-- The frame buffer with one cell written; the canonical form is kept. -/
def writeCell : Memory → Nat → Byte → Memory
  | [], x, v => [(x, v)]
  | (a, w) :: m, x, v =>
    if x < a then (x, v) :: (a, w) :: m
    else if x = a then (x, v) :: m
    else (a, w) :: writeCell m x v

/-- A read of `FB[a]` (R18, R22, R30). -/
def fbRead (m : Memory) (a : Nat) : Except Fault Byte :=
  if a < Config.fbSize then written (readCell m a) else .error .indexOutsideSpace

/-- `FB[a] <- v` (R18, R30). -/
def fbWrite (m : Memory) (a : Nat) (v : Byte) : Except Fault Memory :=
  if a < Config.fbSize then .ok (writeCell m a v) else .error .indexOutsideSpace

/-- The bytes written one after another from index `a` upward (R33). -/
def fbStore (m : Memory) (a : Nat) : List Byte → Except Fault Memory
  | [] => .ok m
  | v :: vs =>
    match fbWrite m a v with
    | .ok m' => fbStore m' (a + 1) vs
    | .error f => .error f

/-- `FB[a .. a+n-1]` (R8). -/
def fbLoad (m : Memory) (a : Nat) : Nat → Except Fault (List Byte)
  | 0 => .ok []
  | n + 1 =>
    match fbRead m a with
    | .ok v =>
      match fbLoad m (a + 1) n with
      | .ok vs => .ok (v :: vs)
      | .error f => .error f
    | .error f => .error f

/-- The reset event (R130): the block at its values after reset, a new run (R141), no radio call. The environment's own data,
what the host and the radio are still going to do, is not the block's and stays (DESIGN CHOICE, assumption 5). -/
def resetBlock (s : State) : State :=
  { State.reset with inbox := s.inbox, radioScript := s.radioScript, draws := s.draws }

/-- The state with the host's moves still to come replaced. -/
def withInbox (moves : List HostMove) (s : State) : State := { s with inbox := moves }

/-- A message presented next on the command port, before every move the host already has to make (R45). -/
def presentNext (msg : List Byte) (s : State) : State := withInbox (.command msg :: s.inbox) s

end Sys2Proof.Machine
end

