-- ==== Sys2Proof/Machine/Operands.lean ====
section
/-! DEFINITION. The operand forms (30_encoding.md R50) and the two value checks that several commands share: the address
length (R81) and the supported pair (41_crc_engine.md R73, R74). -/

namespace Sys2Proof.Machine

/-- A byte operand as a length or an index: zero-extended, 0 to 255 (R50). -/
abbrev unsigned (b : Byte) : Nat := b.toNat

/-- The address length an operand gives, if it is in `ALEN_MIN .. ALEN_MAX` (R81, R76). A value outside is rejected, never
clamped. -/
def addrLenOf (b : Byte) : Option AddrLen :=
  if unsigned b = 3 then some .three
  else if unsigned b = 4 then some .four
  else if unsigned b = 5 then some .five
  else none

/-- The XOR-out index `k = alen - 3 + plen` (R32, R73). -/
def xorIndex (alen : AddrLen) (plen : Nat) : Nat := alen.toNat - Config.alenMin + plen

/-- The XOR-out entry of a pair of operands, `none` when the pair is not supported (R74). -/
def xorEntry (p : Config.Params) (alen : Byte) (plen : Nat) : Option Half :=
  match addrLenOf alen with
  | some a => romX p (xorIndex a plen)
  | none => none

end Sys2Proof.Machine
end

