-- ==== Sys2Proof/Machine/ByteTransforms.lean ====
section
/-! DEFINITION. The bit-reversal unit and the byte whitener, with the commands BITREV and WHITEN
(40_byte_transforms.md R60 to R66). -/

namespace Sys2Proof.Machine

/-- `bit_reverse` (R60): bit `i` of the result is bit `7-i` of the operand. Bit 0 of the operand is written leftmost. -/
def bitReverse (b : Byte) : Byte :=
  b.extractLsb' 0 1 ++ b.extractLsb' 1 1 ++ b.extractLsb' 2 1 ++ b.extractLsb' 3 1 ++
    b.extractLsb' 4 1 ++ b.extractLsb' 5 1 ++ b.extractLsb' 6 1 ++ b.extractLsb' 7 1

/-- `whiten(b, i)` (R63), `none` where the table has no entry `i`: there the function is not defined. -/
def whitenByte (p : Config.Params) (b : Byte) (i : Nat) : Option Byte := (romS p i).map (b ^^^ ·)

/-- A run of bytes whitened with consecutive table entries from `i` on (R31). -/
def whitenRun (p : Config.Params) (i : Nat) : List Byte → Option (List Byte)
  | [] => some []
  | b :: bs =>
    match whitenByte p b i with
    | some r => (whitenRun p (i + 1) bs).map (r :: ·)
    | none => none

/-- BITREV (R61). -/
def execBitrev (b : Byte) (s : State) : Host.Outcome State Fault Refusal :=
  .next (respond .ok [bitReverse b] s)

/-- WHITEN (R64) under the parameters `p`: an index at or above `SCRAMBLE_LEN` is refused with `RANGE`. -/
def whitenUnder (p : Config.Params) (b i : Byte) (s : State) : Host.Outcome State Fault Refusal :=
  .next (match whitenByte p b (unsigned i) with
    | some r => respond .ok [r] s
    | none => refuse .range s)

/-- WHITEN (R64). -/
def execWhiten (b i : Byte) (s : State) : Host.Outcome State Fault Refusal := whitenUnder config b i s

end Sys2Proof.Machine
end

