-- ==== Sys2Proof/Machine/CrcEngine.lean ====
section
/-! DEFINITION. The CRC-16 engine and the command CRC (41_crc_engine.md R70 to R78). -/

namespace Sys2Proof.Machine

/-- One of the eight shifts of `crc_update` (R70): the bit that leaves bit 15 selects the polynomial. -/
def crcShift (c : Half) : Half := if c.msb then (c <<< 1) ^^^ Config.crcPoly else c <<< 1

/-- `crc_update(c, a)` (R70): the byte enters at bits 15:8, then eight shifts. -/
def crcUpdate (c : Half) (a : Byte) : Half := Nat.repeat crcShift 8 (c ^^^ (a.setWidth 16 <<< 8))

/-- The engine run over a byte sequence from a given register value. -/
def crcFrom (seed : Half) (d : List Byte) : Half := d.foldl crcUpdate seed

/-- `crc_seq(d)` (R72): the run seeded with `CRC_INIT`, whatever the payload length (decision D6). -/
def crcSeq (d : List Byte) : Half := crcFrom Config.crcInit d

/-- `compute_crc` (R75) over the bytes it covers, with the XOR-out entry already looked up. -/
def computeCrc (covered : List Byte) (xorout : Half) : Half := crcSeq covered ^^^ xorout

/-- CRC (R76) under the parameters `p`. -/
def crcUnder (p : Config.Params) (alen plen off len : Byte) (buf : List Byte) (s : State) :
    Host.Outcome State Fault Refusal :=
  .next (match xorEntry p alen (unsigned plen) with
    | some x => respond .ok (bigEndian16 (computeCrc ((buf.drop (unsigned off)).take (unsigned len)) x)) s
    | none => refuse .cfgErr s)

/-- CRC (R76). -/
def execCrc (alen plen off len : Byte) (buf : List Byte) (s : State) : Host.Outcome State Fault Refusal :=
  crcUnder config alen plen off len buf s

end Sys2Proof.Machine
end

