-- ==== Sys2Proof/Machine/Flags.lean ====
section
/-! DEFINITION. The block's one flag, `CRCEN` (10_state.md R13). "There are no condition codes, no carry, zero or overflow
flags and no predicates anywhere in the block", so no other flag computation exists. -/

namespace Sys2Proof.Machine

/-- `CRCEN <- e` (R85). -/
def setCrcen (e : Bool) (s : State) : State := { s with crcen := e }

/-- `c` of R33 and R88: how many CRC bytes a frame has. -/
def crcTrailerLen (crcen : Bool) : Nat := if crcen then Config.crcBytes else 0

end Sys2Proof.Machine
end

