-- ==== Sys2Proof/Machine/Framer.lean ====
section
/-! DEFINITION. The packet framer: CFGADDR, SETCRC and SEND (42_framer.md R80 to R97). -/

namespace Sys2Proof.Machine

/-- CFGADDR's two radio calls, in the order of R83 (decision D16). -/
def addressCalls (p : Config.Params) (alen : AddrLen) : List RadioEvent :=
  [.setAddressWidth alen.toNat, .writeTxAddress (p.preambleAddr alen)]

/-- CFGADDR's state writes and radio calls after its checks (R82, R83, R84). -/
def storeAddress (p : Config.Params) (a : Bytes5) (alen : AddrLen) (s : State) : State :=
  emit (addressCalls p alen)
    { s with addr := some a, alen := some alen, txa := some (p.preambleAddr alen), phase := .ready }

/-- CFGADDR (R81, R82) under the parameters `p`: the phase is checked before the length (R114). It is stuck where one of its
two radio calls never returns (R125); that no reset event releases it then is the model's choice (DESIGN CHOICE, assumption
20). -/
def cfgaddrUnder (p : Config.Params) (a : Bytes5) (alen : Byte) (s : State) : Host.Outcome State Fault Refusal :=
  match s.phase with
  | .failed => .next (refuse .failed s)
  | .uninit | .ready => .next (refuse .badPhase s)
  | .inited =>
    match addrLenOf alen with
    | some n =>
      if radioHangs (addressCalls p n).length s then .fault .radioNeverReturns
      else .next (respond .ok [] (storeAddress p a n s))
    | none => .next (refuse .cfgErr s)

/-- CFGADDR (R82). -/
def execCfgaddr (a : Bytes5) (alen : Byte) (s : State) : Host.Outcome State Fault Refusal := cfgaddrUnder config a alen s

/-- SETCRC (R85): operand 0 or 1; any other is reserved (R53). -/
def execSetcrc (e : Byte) (s : State) : Host.Outcome State Fault Refusal :=
  .next (if 1 < unsigned e then refuse .illegal s else respond .ok [] (setCrcen (unsigned e == 1) s))

/-- The filler of a frame: one byte 0x55 when the address length is below 4 (R90; conflict C6). -/
def fillerField (alen : AddrLen) : List Byte := if alen.toNat < 4 then [Config.filler] else []

/-- `f` of R33 and R88, and `off` of R91. -/
def fillerLen (alen : AddrLen) : Nat := if alen.toNat < 4 then 1 else 0

/-- The address bytes that go on air, in on-air order: the first `ALEN` bytes of `ADDR`, last one first, not bit-reversed
(R34 (b), R90). -/
def onAirAddress (addr : Bytes5) (alen : AddrLen) : List Byte := (addr.toList.take alen.toNat).reverse

/-- The payload bytes as they go on air before whitening: in order, each bit-reversed (R34 (c), R66, R90). -/
def onAirPayload (payload : List Byte) : List Byte := payload.map bitReverse

/-- The three size checks of R88. The pair must be supported whether or not the CRC is on (decision D15). -/
abbrev sizesOk (p : Config.Params) (alen : AddrLen) (crcen : Bool) (n : Nat) : Prop :=
  alen.toNat + n ≤ p.scramble.length ∧
    xorIndex alen n < p.xorout.length ∧
      fillerLen alen + alen.toNat + n + crcTrailerLen crcen ≤ Config.fbSize

/-- SEND's assembly (R90): filler, whitened address, whitened payload, written from `FB[0]` upward. It gives the buffer and
the write pointer `last`. -/
def assemble (p : Config.Params) (addr : Bytes5) (alen : AddrLen) (payload : List Byte) (fb : Memory) :
    Except Fault (Memory × Nat) := do
  let air ← inSpace (whitenRun p 0 (onAirAddress addr alen ++ onAirPayload payload))
  let body := fillerField alen ++ air
  let fb ← fbStore fb 0 body
  pure (fb, body.length)

/-- SEND's CRC step (R91): it covers `FB[off .. off+ALEN+n-1]` as the buffer holds it, and writes the two bytes, high byte
first, at the write pointer. -/
def appendCrc (p : Config.Params) (alen : AddrLen) (crcen : Bool) (n : Nat) (fb : Memory) (last : Nat) :
    Except Fault (Memory × Nat) :=
  if crcen then do
    let covered ← fbLoad fb (fillerLen alen) (alen.toNat + n)
    let x ← inSpace (romX p (xorIndex alen n))
    let fb ← fbStore fb last (bigEndian16 (computeCrc covered x))
    pure (fb, last + Config.crcBytes)
  else .ok (fb, last)

/-- `radio.write` of the whole frame and its result (R92, R93): one call, `PKTCNT` counted whatever the radio answers, and no
retry (R94). -/
def transmit (frame : List Byte) (s : State) : Except Fault State := do
  let (ok, s) ← askRadio s
  pure (respond (if ok then .ok else .txFail) [] (record [.write frame ok] { s with pktcnt := s.pktcnt + 1 }))

/-- SEND after its checks: R90, R91, R92, R93 in that order. -/
def sendFrame (p : Config.Params) (alen : AddrLen) (payload : List Byte) (s : State) : Except Fault State := do
  let addr ← written s.addr
  let (fb, last) ← assemble p addr alen payload s.fb
  let (fb, last) ← appendCrc p alen s.crcen payload.length fb last
  let frame ← fbLoad fb 0 last
  transmit frame { s with fb := fb, flen := last }

/-- SEND (R86 to R93) under the parameters `p`. It is stuck where `write` never returns (R125); that no reset event releases it
then is the model's choice (DESIGN CHOICE, assumption 20). -/
def sendUnder (p : Config.Params) (payload : List Byte) (s : State) : Host.Outcome State Fault Refusal :=
  match s.phase with
  | .failed => .next (refuse .failed s)
  | .uninit | .inited => .next (refuse .badPhase s)
  | .ready =>
    match written s.alen with
    | .error f => .fault f
    | .ok alen =>
      if sizesOk p alen s.crcen payload.length then
        match sendFrame p alen payload s with
        | .ok t => .next t
        | .error f => .fault f
      else .next (refuse .cfgErr s)

/-- SEND (R86). -/
def execSend (payload : List Byte) (s : State) : Host.Outcome State Fault Refusal := sendUnder config payload s

end Sys2Proof.Machine
end

