-- ==== Sys2Proof/Machine/System.lean ====
section
/-! DEFINITION. The system commands INIT and RDCNT (43_system.md R100 to R104). -/

namespace Sys2Proof.Machine

/-- The seven configuration calls of INIT after `begin`, in the order of R101 (decision D16). -/
def bringUpCalls (p : Config.Params) : List RadioEvent :=
  [.setChannel p.channel, .setDataRate p.dataRate, .setAutoAck false, .disableCRC, .setRetries 0 0, .setPALevel p.paLevel,
    .setPayloadSize p.radioPsize]

/-- INIT's effect once the radio has answered `begin` and, after true, the seven calls have returned (R101, R102). -/
def afterBegin (p : Config.Params) (ok : Bool) (s : State) : State :=
  if ok then respond .ok [] (emit (bringUpCalls p) (record [.begin true] { s with phase := .inited }))
  else respond .failed [] (record [.begin false] { s with phase := .failed })

/-- INIT (R100, R101) under the parameters `p`. It is stuck where `begin` never returns, or one of the seven calls after a
`begin` answered true (R125); that no reset event releases it then is the model's choice (DESIGN CHOICE, assumption 20). -/
def initUnder (p : Config.Params) (s : State) : Host.Outcome State Fault Refusal :=
  match s.phase with
  | .failed => .next (refuse .failed s)
  | .inited | .ready => .next (refuse .badPhase s)
  | .uninit =>
    match askRadio s with
    | .ok (ok, t) =>
      if radioHangs (bringUpCalls p).length t && ok then .fault .radioNeverReturns else .next (afterBegin p ok t)
    | .error f => .fault f

/-- INIT (R101). -/
def execInit (s : State) : Host.Outcome State Fault Refusal := initUnder config s

/-- RDCNT (R104). -/
def execRdcnt (s : State) : Host.Outcome State Fault Refusal := .next (respond .ok (bigEndian32 s.pktcnt) s)

end Sys2Proof.Machine
end

