-- ==== Sys2Proof/Machine/Dispatch.lean ====
section
/-! DEFINITION. One arm per command: each calls the meaning of its rule (60_exceptions.md R113 says when it runs). -/

namespace Sys2Proof.Machine

def exec (i : Instr) (s : State) : Host.Outcome State Fault Refusal :=
  match i with
  | .bitrev b => Sys2Proof.Machine.execBitrev b s
  | .whiten b k => Sys2Proof.Machine.execWhiten b k s
  | .crc alen plen off len buf => Sys2Proof.Machine.execCrc alen plen off len buf s
  | .init => Sys2Proof.Machine.execInit s
  | .cfgaddr a alen => Sys2Proof.Machine.execCfgaddr a alen s
  | .setcrc e => Sys2Proof.Machine.execSetcrc e s
  | .send payload => Sys2Proof.Machine.execSend payload s
  | .rdcnt => Sys2Proof.Machine.execRdcnt s

end Sys2Proof.Machine
end

