-- ==== Sys2Proof/Machine/Step.lean ====
section
/-! DEFINITION. One step of the sequencer: one whole command, from the message's arrival to its response (10_state.md R10). -/

namespace Sys2Proof.Machine

/-- The host's next move (R10, R142): the reset event (R130), or a message, which is a command to run or is answered
`ILLEGAL` (R52, R54, R57). With no move to come the block has nothing to do and stays as it is (R141; DESIGN CHOICE, assumption 4). -/
def step (s : State) : Host.Outcome State Fault Refusal :=
  match s.inbox with
  | [] => .next s
  | .reset :: rest => .next (resetBlock (withInbox rest s))
  | .command msg :: rest =>
    match decode msg with
    | .ok i => exec i (withInbox rest s)
    | .error _ => .next (refuse .illegal (withInbox rest s))

/-- The state with an opcode-table word presented as the very next message on the command port (assumption 8). -/
def State.withFetchWord (s : State) (nbits w : Nat) : State := presentNext (tableMessage nbits w) s

end Sys2Proof.Machine
end

