-- ==== Sys2Proof/Safety.lean ====
section
/-! DEFINITION. What a safe state is: the invariants of the block's registers and frame buffer (10_state.md R23), and of its
history on the radio port (60_exceptions.md R124; 10_state.md R16, R17, R19). -/

namespace Sys2Proof.Machine

/-- R23: which registers are written in which phase, and what the frame buffer holds. (`ALEN` in 3 .. 5 and `CRCEN` in 0, 1
hold by the fields' types.) -/
structure State.Inv (s : State) : Prop where
  /-- R23 (a). -/
  readyWritten : s.phase = .ready → s.addr.isSome ∧ s.alen.isSome ∧ s.txa.isSome
  /-- R23 (b). -/
  elseUnwritten : s.phase ≠ .ready → s.addr = none ∧ s.alen = none ∧ s.txa = none ∧ s.flen = 0 ∧ s.pktcnt = 0
  /-- R23 (c), first half. -/
  flenInBuffer : s.flen ≤ Config.fbSize
  /-- R23 (c), second half. -/
  frameWritten : ∀ a < s.flen, (readCell s.fb a).isSome
  /-- The frame buffer keeps its canonical form. -/
  fbCanonical : s.fb.wf

/-- Whether a radio call hands over a frame. -/
def RadioEvent.isWrite : RadioEvent → Bool
  | .write _ _ => true
  | .begin _ | .setChannel _ | .setDataRate _ | .setAutoAck _ | .disableCRC | .setRetries _ _ | .setPALevel _
  | .setPayloadSize _ | .setAddressWidth _ | .writeTxAddress _ => false

/-- The calls a successful INIT makes (R101, R124 (a)). -/
def initCalls : List RadioEvent := .begin true :: bringUpCalls config

/-- The calls made before the first `write` (R124 (a)). -/
def configuredCalls (alen : AddrLen) : List RadioEvent :=
  initCalls ++ addressCalls config alen

/-- What has happened on the radio port since reset, phase by phase (R124): nothing; the failed `begin` alone; INIT's calls;
INIT's and CFGADDR's calls and then `write` calls only, which `PKTCNT` counts (R16) and the last of which handed over
`FB[0 .. FLEN-1]` (R19). `TXA` holds `PREAMBLE_ADDR(ALEN)` (R17). -/
def State.RadioPromise (s : State) : Prop :=
  match s.phase with
  | .uninit => s.radioLog = []
  | .failed => s.radioLog = [.begin false]
  | .inited => s.radioLog = initCalls
  | .ready => ∃ alen writes,
      s.alen = some alen ∧ s.txa = some (config.preambleAddr alen) ∧
      s.radioLog = configuredCalls alen ++ writes ∧ (∀ e ∈ writes, e.isWrite = true) ∧
      s.pktcnt = BitVec.ofNat Config.pktcntWidth writes.length ∧
      (writes = [] → s.flen = 0) ∧
      ∀ frame ok, writes.getLast? = some (.write frame ok) → fbLoad s.fb 0 s.flen = .ok frame

/-- A step from this state stops only where one of the radio's next eight calls does (no command makes more): the one stop the
spec leaves to a run (R125). -/
def State.StopsOnlyWithTheRadio (s : State) : Prop :=
  (∃ t, step s = .next t) ∨ (step s = .fault .radioNeverReturns ∧ .never ∈ s.radioScript.take 8)

end Sys2Proof.Machine
end

