-- ==== Sys2Proof/Certificates/Slice0/Obligations.lean ====
section
/-! DEFINITION. The statements about the model, from the numbered rules of spec/. A response byte, an opcode and a state are
written out, not computed by the model. Where a rule is the spec's own decision (D<n> of 92_eei_decisions.md) or marked there as
derived, the docstring says so. -/

open Sys2Proof Sys2Proof.Machine

/-! ### Reset, the step, decoding -/

/-- R21, R130 (decision D23; `CRCEN` = 1 is D9): the block's state right after reset. -/
def Obligations.ResetLeavesTheStatedValues : Prop :=
  State.reset.phase = .uninit ∧ State.reset.crcen = true ∧ State.reset.pktcnt = 0 ∧ State.reset.addr = none ∧
    State.reset.alen = none ∧ State.reset.txa = none ∧ (∀ a, readCell State.reset.fb a = none) ∧ State.reset.flen = 0 ∧
    State.reset.radioLog = []

/-- R130, R131, R138: the reset event gives exactly the block of `State.reset` from every state, also from READY and FAILED,
and makes no radio call. That the environment's own data stay, and that the two histories start anew, is the model's choice
(assumptions 4 and 5). -/
def Obligations.ResetEventClearsTheBlock : Prop :=
  ∀ (s : State) (rest : List HostMove), s.inbox = .reset :: rest →
    step s = .next { State.reset with inbox := rest, radioScript := s.radioScript, draws := s.draws }

/-- A step runs the decoded command: R45, R57 (4). The message has left the port and nothing else has changed when the
command's own rule runs; there is no program counter to move (R12). -/
def Obligations.StepRunsTheDecodedCommand : Prop :=
  ∀ (s : State) (msg : List Byte) (rest : List HostMove) (i : Instr),
    s.inbox = .command msg :: rest → decode msg = .ok i → step s = exec i { s with inbox := rest }

/-- The word the host places is the command the next step runs (R45; the table's numbering is the task's, and the framing of a short table word is
the model's choice: assumption 8). -/
def Obligations.TheNextStepRunsTheWordPlaced : Prop :=
  ∀ (s : State) (nbits w : Nat) (i : Instr), decodeTableWord nbits w = some i → step (s.withFetchWord nbits w) = exec i s

/-- R52, R54, R57 (decisions D4, D29): a message that is no command, empty, of a reserved opcode or of the wrong length, is
answered `05` alone; no state changes and nothing appears on the radio port. -/
def Obligations.StepAnswersIllegalToAMessageThatIsNoCommand : Prop :=
  ∀ (s : State) (msg : List Byte) (rest : List HostMove),
    s.inbox = .command msg :: rest → (∀ i, decode msg ≠ .ok i) →
    step s = .next { s with inbox := rest, responses := s.responses ++ [[0x05]] }

/-- R48, R49, R51, R52 (decisions D2, D4, D29): exactly these messages are commands, by opcode and demanded length. -/
def Obligations.CommandsAreExactlyTheMessagesOfDemandedLength : Prop :=
  ∀ msg : List Byte, (∃ i, decode msg = .ok i) ↔
    (msg.head? = some 0x01 ∧ msg.length = 2) ∨
    (msg.head? = some 0x02 ∧ msg.length = 3) ∨
    (msg.head? = some 0x03 ∧ ∃ off len : Byte, msg[3]? = some off ∧ msg[4]? = some len ∧
      msg.length = 5 + off.toNat + len.toNat) ∨
    (msg.head? = some 0x10 ∧ msg.length = 1) ∨
    (msg.head? = some 0x11 ∧ msg.length = 7) ∨
    (msg.head? = some 0x12 ∧ msg.length = 2) ∨
    (msg.head? = some 0x20 ∧ ∃ n : Byte, msg[1]? = some n ∧ msg.length = 2 + n.toNat) ∨
    (msg.head? = some 0x30 ∧ msg.length = 1)

/-- R49, R50 (decision D2): decoding the message of a well-formed command gives the command back, for every command and every
value of every operand. -/
def Obligations.DecodeOfEncodeIsTheCommand : Prop := ∀ i : Instr, i.wf = true → decode (encode i) = .ok i

/-- R49, R57 (decision D2): a message the decoder reads as a command is that command's one message, and the command is well
formed. -/
def Obligations.EncodeOfDecodeIsTheMessage : Prop :=
  ∀ (msg : List Byte) (i : Instr), decode msg = .ok i → i.wf = true ∧ encode i = msg

/-- R48, R49: messages written out from the layout column of R49, one of each command. -/
def Obligations.SampleMessagesDecodeAsTheLayoutSays : Prop :=
  decode [0b00000001, 0x76] = .ok (.bitrev 0x76) ∧
    decode [0b00000010, 0x6E, 0x06] = .ok (.whiten 0x6E 0x06) ∧
    decode [0b00000011, 0x03, 0x06, 0x01, 0x02, 0x55, 0xE2, 0x90] = .ok (.crc 0x03 0x06 0x01 0x02 [0x55, 0xE2, 0x90]) ∧
    decode [0b00010000] = .ok .init ∧
    decode [0b00010001, 0x20, 0x21, 0x01, 0x31, 0xAA, 0x05] = .ok (.cfgaddr ⟨0x20, 0x21, 0x01, 0x31, 0xAA⟩ 0x05) ∧
    decode [0b00010010, 0x01] = .ok (.setcrc 0x01) ∧
    decode [0b00100000, 0x02, 0x00, 0x76] = .ok (.send [0x00, 0x76]) ∧
    decode [0b00110000] = .ok .rdcnt

/-! ### BITREV and WHITEN -/

/-- R60, R61: BITREV answers `OK` and the byte whose bit `i` is the operand's bit `7-i`, in every state, and changes nothing
else. -/
def Obligations.BitrevAnswersTheReversedByte : Prop :=
  ∀ (b : Byte) (s : State), ∃ r : Byte, (∀ i < 8, r.getLsbD i = b.getLsbD (7 - i)) ∧
    exec (.bitrev b) s = .next { s with responses := s.responses ++ [[0x00, r]] }

/-- R62 (marked derived from R60): involution, bijection, distribution over exclusive-or. -/
def Obligations.BitReverseLaws : Prop :=
  (∀ b, bitReverse (bitReverse b) = b) ∧ Function.Bijective bitReverse ∧
    ∀ a b, bitReverse (a ^^^ b) = bitReverse a ^^^ bitReverse b

/-- R63: with an index inside the table WHITEN answers `OK` and the operand exclusive-ored with that entry, in every state, and
changes nothing else; at an index past the table the function `whiten` is not defined. -/
def Obligations.WhitenAnswersTheByteXoredWithItsEntry : Prop :=
  (∀ (b i : Byte) (s : State) (h : i.toNat < config.scramble.length),
    exec (.whiten b i) s = .next { s with responses := s.responses ++ [[0x00, b ^^^ config.scramble[i.toNat]]] }) ∧
    ∀ (b : Byte) (i : Nat), config.scramble.length ≤ i → whitenByte config b i = none

/-- R64 (decision D28), for every instantiation of the table: an index at or past its end is answered `04` alone, nothing else
changes; and WHITEN is that meaning under the block's own parameters. -/
def Obligations.WhitenRefusesAnIndexPastTheTable : Prop :=
  (∀ b i s, exec (.whiten b i) s = whitenUnder config b i s) ∧
    ∀ (p : Config.Params) (b i : Byte) (s : State), p.scramble.length ≤ i.toNat →
      whitenUnder p b i s = .next { s with responses := s.responses ++ [[0x04]] }

/-- R65 (marked derived from R63), for every instantiation and every valid index: whitening twice restores the byte, is a
bijection, and keeps the difference of two bytes. -/
def Obligations.WhiteningLaws : Prop :=
  ∀ (p : Config.Params) (i : Nat), i < p.scramble.length →
    (∀ r, ∃! b, whitenByte p b i = some r) ∧
      ∀ a b ra rb, whitenByte p a i = some ra → whitenByte p b i = some rb →
        whitenByte p ra i = some a ∧ ra ^^^ rb = a ^^^ b

/-! ### CRC -/

/-- R70, whose bit order (most significant bit first, nothing reflected) is R71's decision D5 (log entry 11, DESIGN CHOICE): the
byte enters at bits 15:8, then eight shifts, each exclusive-oring 0x1021 in when the bit that leaves is 1; with R70's
examples. -/
def Obligations.CrcUpdateIsEightShiftsWithThePolynomial : Prop :=
  (∀ c : Half, crcShift c = if c.getLsbD 15 then (c <<< 1) ^^^ 0x1021 else c <<< 1) ∧
    (∀ (c : Half) (a : Byte), crcUpdate c a = crcShift (crcShift (crcShift (crcShift (crcShift (crcShift (crcShift (crcShift
      (c ^^^ (a.setWidth 16 <<< 8)))))))))) ∧
    crcUpdate 0x0000 0x00 = 0x0000 ∧ crcUpdate 0x0000 0x01 = 0x1021 ∧ crcUpdate 0x0000 0x80 = 0x9188 ∧
    crcUpdate 0x8000 0x00 = 0x9188 ∧ crcUpdate 0xB5D2 0x00 = 0x257E ∧ crcUpdate 0xB5D2 0xFF = 0x3B8E ∧
    crcUpdate 0xFFFF 0xFF = 0xFF00

/-- R72 (the seed at lengths other than 6 is decision D6): the empty sequence gives the seed 0xB5D2, and each further byte
updates the register once, in order. -/
def Obligations.CrcSeqUpdatesTheSeedByteByByte : Prop :=
  crcSeq [] = 0xB5D2 ∧ ∀ (d : List Byte) (a : Byte), crcSeq (d ++ [a]) = crcUpdate (crcSeq d) a

/-- R75, R76 (the explicit length operands are decision D2, the order of the two result bytes D20): for a supported pair CRC
answers `OK` and, high byte first, the seeded run over `buf[off .. off+len-1]` exclusive-ored with `XOROUT[alen-3+plen]`, in
every state, and changes nothing else (`FB` is not touched). At `plen` other than 6 the seed of the run, 0xB5D2, is decision D6
(conflict C4; log entry 11, DESIGN CHOICE), and at every `plen` its bit order is D5: the statement rests on both. -/
def Obligations.CrcAnswersTheXoredRunForASupportedPair : Prop :=
  ∀ (alen plen off len : Byte) (buf : List Byte) (s : State), 3 ≤ alen.toNat → alen.toNat ≤ 5 →
    ∀ (h : alen.toNat - 3 + plen.toNat < config.xorout.length) (v : Half),
      v = crcSeq ((buf.drop off.toNat).take len.toNat) ^^^ config.xorout[alen.toNat - 3 + plen.toNat] →
      exec (.crc alen plen off len buf) s =
        .next { s with responses := s.responses ++ [[0x00, v.extractLsb' 8 8, v.extractLsb' 0 8]] }

/-- R74, R88, for every instantiation of the table: a command given an unsupported pair answers `02` alone, writes no state and
makes no radio call: CRC in every state, and SEND in READY. That a SEND is refused also when its CRC is off is decision D15 (R88,
conflict C7), and the code `02` is D3 (log entry 10). -/
def Obligations.UnsupportedPairsAreRefusedWithCfgerr : Prop :=
  (∀ alen plen off len buf s, exec (.crc alen plen off len buf) s = crcUnder config alen plen off len buf s) ∧
    (∀ payload s, exec (.send payload) s = sendUnder config payload s) ∧
    (∀ (p : Config.Params) (alen plen off len : Byte) (buf : List Byte) (s : State),
      ¬(3 ≤ alen.toNat ∧ alen.toNat ≤ 5 ∧ alen.toNat - 3 + plen.toNat < p.xorout.length) →
      crcUnder p alen plen off len buf s = .next { s with responses := s.responses ++ [[0x02]] }) ∧
    ∀ (p : Config.Params) (payload : List Byte) (s : State) (a : AddrLen), s.phase = .ready → s.alen = some a →
      p.xorout.length ≤ a.toNat - 3 + payload.length →
      sendUnder p payload s = .next { s with responses := s.responses ++ [[0x02]] }

/-- R77 (c) (marked derived): the engine is linear over exclusive-or, the seed cancelling. -/
def Obligations.CrcRunIsLinear : Prop :=
  ∀ d e : List Byte, d.length = e.length → crcSeq d ^^^ crcSeq e = crcFrom 0x0000 (List.zipWith (· ^^^ ·) d e)

/-- R77 (b) (marked derived), "changing any single payload bit changes the CRC": flipping one bit of one covered byte changes
the final CRC, whatever the XOR-out entry. -/
def Obligations.EverySingleBitFlipChangesTheCrc : Prop :=
  ∀ (d : List Byte) (j : Nat) (hj : j < d.length) (b : Nat) (x : Half), b < 8 →
    computeCrc (d.set j (d[j] ^^^ (1#8 <<< b))) x ≠ computeCrc d x

/-! ### INIT -/

/-- R101, R102, R116 (the order of the calls is decision D16; the phases are D12, D25): INIT in UNINIT asks `begin` once. On
true it makes the seven configuration calls in order and is INITED with `00`; on false it makes no further call and is FAILED
with `06`. The answer is the one the environment placed, or a free one (R123). Nothing else changes. The premise is that each
call INIT makes returns (R125): all eight, or `begin` with false. That each call uses up one placed reply is the model's choice
(log entry 2). -/
def Obligations.InitBringsUpTheRadioOrMarksItFailed : Prop :=
  ∀ s : State, s.phase = .uninit → .never ∉ s.radioScript.take 8 ∨ s.radioScript.head? = some (.answer false) →
    ∃ ok : Bool, (∀ c, s.radioScript.head? = some (.answer c) → ok = c) ∧
      exec .init s = .next (if ok then
        { s with
          phase := .inited
          radioLog := s.radioLog ++ [.begin true, .setChannel config.channel, .setDataRate config.dataRate,
            .setAutoAck false, .disableCRC, .setRetries 0 0, .setPALevel config.paLevel, .setPayloadSize config.radioPsize]
          responses := s.responses ++ [[0x00]]
          radioScript := s.radioScript.drop 8, draws := s.draws + 8 }
      else
        { s with
          phase := .failed, radioLog := s.radioLog ++ [.begin false], responses := s.responses ++ [[0x06]]
          radioScript := s.radioScript.drop 1, draws := s.draws + 1 })

/-- R100 (decisions D12, D25): every later INIT is refused, `06` in FAILED and `03` in INITED and READY, with no radio call
and no state written. -/
def Obligations.ASecondInitIsRefused : Prop :=
  ∀ s : State,
    (s.phase = .failed → exec .init s = .next { s with responses := s.responses ++ [[0x06]] }) ∧
    (s.phase = .inited ∨ s.phase = .ready → exec .init s = .next { s with responses := s.responses ++ [[0x03]] })

/-! ### CFGADDR and SETCRC -/

/-- R82, R83, R84: in INITED with a length of 3, 4 or 5, CFGADDR stores all five address bytes, the length and
`PREAMBLE_ADDR(alen)` (decision D17), makes its two radio calls, and is READY with `00`. Nothing else changes. The order of the
two calls is decision D16 (R83; log entry 14, DESIGN CHOICE). The premise is that the two calls return (R125); that each uses up
one placed reply is the model's choice (log entry 2). -/
def Obligations.CfgaddrStoresTheAddress : Prop :=
  ∀ (s : State) (a : Bytes5) (alen : Byte) (n : AddrLen), s.phase = .inited → alen.toNat = n.toNat →
    .never ∉ s.radioScript.take 2 →
    exec (.cfgaddr a alen) s = .next { s with
      addr := some a, alen := some n, txa := some (config.preambleAddr n), phase := .ready
      radioLog := s.radioLog ++ [.setAddressWidth n.toNat, .writeTxAddress (config.preambleAddr n)]
      responses := s.responses ++ [[0x00]]
      radioScript := s.radioScript.drop 2, draws := s.draws + 2 }

/-- R81, R114 (decisions D13, D14): CFGADDR is refused with `06` in FAILED, `03` in UNINIT and READY whatever its length
operand, and `02` in INITED with a length outside 3..5. Nothing else changes. -/
def Obligations.CfgaddrIsRefusedOutOfPhaseOrRange : Prop :=
  ∀ (s : State) (a : Bytes5) (alen : Byte),
    (s.phase = .failed → exec (.cfgaddr a alen) s = .next { s with responses := s.responses ++ [[0x06]] }) ∧
    (s.phase = .uninit ∨ s.phase = .ready →
      exec (.cfgaddr a alen) s = .next { s with responses := s.responses ++ [[0x03]] }) ∧
    (s.phase = .inited → alen.toNat < 3 ∨ 5 < alen.toNat →
      exec (.cfgaddr a alen) s = .next { s with responses := s.responses ++ [[0x02]] })

/-- R85, R53 (decisions D4, D9): SETCRC writes `CRCEN` and nothing else with operand 0 or 1, in every phase, and is refused
with `05` with any other. -/
def Obligations.SetcrcWritesTheCrcSwitch : Prop :=
  ∀ s : State,
    exec (.setcrc 0) s = .next { s with crcen := false, responses := s.responses ++ [[0x00]] } ∧
    exec (.setcrc 1) s = .next { s with crcen := true, responses := s.responses ++ [[0x00]] } ∧
    ∀ e : Byte, 1 < e.toNat → exec (.setcrc e) s = .next { s with responses := s.responses ++ [[0x05]] }

/-! ### SEND -/

/-- R33 (but its clause that nothing reads the cells above `FLEN`: that the frame does not depend on `FB` is the statement
TheFrameDependsOnlyOnAddressLengthSwitchAndPayload), R91, with R90, R92, R93, R94, R95: an admitted SEND whose sizes pass R88 writes the frame of R33 to `FB` from index 0
upward, sets `FLEN` to its length, hands the whole frame to the radio in ONE `write`, counts it, and answers `00` or `01` as the
radio says. `FB` at `FLEN` and above, and everything else, is unchanged. It rests on choices: the address bytes sent at `ALEN`
below 5 are decision D14 (log entry 13), the CRC's bit order D5 and its seed at payload lengths other than 6 D6 (log entry 11),
the counter's width and wrap D10 and the 32 bytes of `FB` D11 (log entry 12), and where the answer comes from, placed or free
with its count `draws`, log entry 2. -/
def Obligations.SendHandsTheWholeFrameToTheRadio : Prop :=
  ∀ (s : State) (payload : List Byte) (addr : Bytes5) (a : AddrLen) (f c : Nat),
    s.phase = .ready → s.addr = some addr → s.alen = some a →
    f = (if a.toNat < 4 then 1 else 0) → c = (if s.crcen then 2 else 0) →
    a.toNat + payload.length ≤ config.scramble.length → a.toNat - 3 + payload.length < config.xorout.length →
    f + a.toNat + payload.length + c ≤ 32 → s.radioScript.head? ≠ some .never →
    ∃ (t : State) (ok : Bool) (frame : List Byte),
      exec (.send payload) s = .next t ∧
      (∀ b, s.radioScript.head? = some (.answer b) → ok = b) ∧
      frame.length = f + a.toNat + payload.length + c ∧
      (f = 1 → frame[0]? = some 0x55) ∧
      (∀ i < a.toNat, ∃ x k, addr.toList[a.toNat - 1 - i]? = some x ∧ config.scramble[i]? = some k ∧
        frame[f + i]? = some (x ^^^ k)) ∧
      (∀ j < payload.length, ∃ x k, payload[j]? = some x ∧ config.scramble[a.toNat + j]? = some k ∧
        frame[f + a.toNat + j]? = some (bitReverse x ^^^ k)) ∧
      (s.crcen = true → ∃ x v, config.xorout[a.toNat - 3 + payload.length]? = some x ∧
        v = crcSeq ((frame.drop f).take (a.toNat + payload.length)) ^^^ x ∧
        frame[f + a.toNat + payload.length]? = some (v.extractLsb' 8 8) ∧
        frame[f + a.toNat + payload.length + 1]? = some (v.extractLsb' 0 8)) ∧
      (∀ x, readCell t.fb x = if x < frame.length then frame[x]? else readCell s.fb x) ∧
      t = { s with
        fb := t.fb, flen := frame.length, pktcnt := s.pktcnt + 1
        radioLog := s.radioLog ++ [.write frame ok]
        responses := s.responses ++ [[if ok then 0x00 else 0x01]]
        radioScript := s.radioScript.tail, draws := s.draws + 1 }

/-- R87, R113, R134: "SEND before a successful INIT and CFGADDR is refused"; nothing is assembled, nothing reaches the radio,
`PKTCNT` does not move. That the status is `06` in FAILED and `03` in UNINIT and INITED is decisions D12, D25 (the phases) and D3
(the codes; log entry 10). -/
def Obligations.SendBeforeConfigurationIsRefused : Prop :=
  ∀ (s : State) (payload : List Byte),
    (s.phase = .failed → exec (.send payload) s = .next { s with responses := s.responses ++ [[0x06]] }) ∧
    (s.phase = .uninit ∨ s.phase = .inited →
      exec (.send payload) s = .next { s with responses := s.responses ++ [[0x03]] })

/-- R88 (decisions D11, D15), for every instantiation: a SEND in READY that would leave the scramble table, is an unsupported
pair, or does not fit `FB` is answered `02` alone; nothing else changes. -/
def Obligations.SendOfUnsupportedSizesIsRefused : Prop :=
  (∀ payload s, exec (.send payload) s = sendUnder config payload s) ∧
    ∀ (p : Config.Params) (s : State) (payload : List Byte) (a : AddrLen), s.phase = .ready → s.alen = some a →
      p.scramble.length < a.toNat + payload.length ∨ p.xorout.length ≤ a.toNat - 3 + payload.length ∨
        32 < (if a.toNat < 4 then 1 else 0) + a.toNat + payload.length + (if s.crcen then 2 else 0) →
      sendUnder p payload s = .next { s with responses := s.responses ++ [[0x02]] }

/-- R95 (marked derived), for every instantiation: two SENDs of one payload hand over the same frame when the two states agree
on `ADDR[0 .. ALEN-1]`, `ALEN` and `CRCEN`, whatever else differs in them (`PKTCNT`, `FB`, the radio's answers, the rest of
`ADDR`, `TXA`). -/
def Obligations.TheFrameDependsOnlyOnAddressLengthSwitchAndPayload : Prop :=
  ∀ (p : Config.Params) (payload : List Byte) (s s' t t' : State) (addr addr' : Bytes5) (a : AddrLen)
    (frame frame' : List Byte) (ok ok' : Bool),
    s.addr = some addr → s'.addr = some addr' → s.alen = some a → s'.alen = some a → s.crcen = s'.crcen →
    addr.toList.take a.toNat = addr'.toList.take a.toNat →
    sendUnder p payload s = .next t → t.radioLog = s.radioLog ++ [.write frame ok] →
    sendUnder p payload s' = .next t' → t'.radioLog = s'.radioLog ++ [.write frame' ok'] →
    frame = frame'

/-- R97 (marked derived), for every instantiation: for fixed `ALEN`, payload length and `CRCEN` the frame determines the
address bytes it carries and the payload. -/
def Obligations.TheFrameDeterminesAddressAndPayload : Prop :=
  ∀ (p : Config.Params) (payload payload' : List Byte) (s s' t t' : State) (addr addr' : Bytes5) (a : AddrLen)
    (frame : List Byte) (ok ok' : Bool),
    s.addr = some addr → s'.addr = some addr' → s.alen = some a → s'.alen = some a → s.crcen = s'.crcen →
    payload.length = payload'.length →
    sendUnder p payload s = .next t → t.radioLog = s.radioLog ++ [.write frame ok] →
    sendUnder p payload' s' = .next t' → t'.radioLog = s'.radioLog ++ [.write frame ok'] →
    addr.toList.take a.toNat = addr'.toList.take a.toNat ∧ payload = payload'

/-- R125, 93_implementation_defined.md U14: "If the radio never returns from a call the command never responds and the block
is stuck in that command": INIT's eight calls (the seven after `begin` only where it answers true), an admitted CFGADDR's two, an
admitted SEND's `write`. That the stuck command is a fault, and that its reply is placed in a script, is the model's choice (log
entries 2, 3). -/
def Obligations.ARadioCallThatNeverReturnsStopsTheCommand : Prop :=
  ∀ s : State,
    (s.phase = .uninit → .never ∈ s.radioScript.take 8 → s.radioScript.head? ≠ some (.answer false) →
      exec .init s = .fault .radioNeverReturns) ∧
    (∀ (addr : Bytes5) (alen : Byte), s.phase = .inited → 3 ≤ alen.toNat → alen.toNat ≤ 5 →
      .never ∈ s.radioScript.take 2 → exec (.cfgaddr addr alen) s = .fault .radioNeverReturns) ∧
    ∀ (payload : List Byte) (addr : Bytes5) (a : AddrLen),
      s.phase = .ready → s.addr = some addr → s.alen = some a → sizesOk config a s.crcen payload.length →
      s.radioScript.head? = some .never → exec (.send payload) s = .fault .radioNeverReturns

/-- R22 (marked derived; decision D19): "A model must make a read of an unwritten cell a fault, not a zero": SEND in READY reads `ADDR` and `ALEN`, and stops
by name where one of them holds no value (a state no run reaches: R23, and the statement SafeStatesStopOnlyWithTheRadio). -/
def Obligations.SendFaultsOnAnUnwrittenRegister : Prop :=
  ∀ (s : State) (payload : List Byte), s.phase = .ready →
    (s.alen = none → exec (.send payload) s = .fault .unwrittenRead) ∧
    ∀ a, s.alen = some a → s.addr = none → sizesOk config a s.crcen payload.length →
      exec (.send payload) s = .fault .unwrittenRead

/-! ### RDCNT -/

/-- R104 (decisions D10, D20): RDCNT answers `OK` and the counter's four bytes, most significant first, in every state, and
changes nothing else. -/
def Obligations.RdcntAnswersTheCounter : Prop :=
  ∀ s : State, ∃ c3 c2 c1 c0 : Byte,
    exec .rdcnt s = .next { s with responses := s.responses ++ [[0x00, c3, c2, c1, c0]] } ∧
    s.pktcnt.toNat = c3.toNat * 2 ^ 24 + c2.toNat * 2 ^ 16 + c1.toNat * 2 ^ 8 + c0.toNat

/-! ### Whole-machine rules -/

/-- R47, R110 (decision D3): a message that the block answers gets exactly one response; its first byte is a status 0x00 to
0x06, and only `OK` carries further bytes. The message is used up and later moves stay. -/
def Obligations.EveryMessageGetsExactlyOneResponse : Prop :=
  ∀ (s t : State) (msg : List Byte) (rest : List HostMove), s.inbox = .command msg :: rest → step s = .next t →
    t.inbox = rest ∧ ∃ (st : Byte) (bytes : List Byte),
      t.responses = s.responses ++ [st :: bytes] ∧ st.toNat ≤ 6 ∧ (st ≠ 0x00 → bytes = [])

/-- R115 (decision D26): a refused command writes no state and makes no radio call. Every answer but `00`, `01`, and the `06`
of an INIT in UNINIT is a refusal (R110, R116). -/
def Obligations.ARefusedCommandLeavesNoTrace : Prop :=
  ∀ (i : Instr) (s t : State) (st : Byte) (bytes : List Byte), exec i s = .next t →
    t.responses = s.responses ++ [st :: bytes] → st ≠ 0x00 → st ≠ 0x01 → ¬(st = 0x06 ∧ s.phase = .uninit) →
    t = { s with responses := s.responses ++ [[st]] }

/-- R113 (decisions D12, D13, D25): the commands that need no radio run in every phase: they are never answered `03` or
`06`, and they always answer. -/
def Obligations.RadioFreeCommandsRunInEveryPhase : Prop :=
  ∀ (i : Instr) (s : State), i ≠ .init → (∀ a alen, i ≠ .cfgaddr a alen) → (∀ payload, i ≠ .send payload) →
    ∃ (t : State) (st : Byte) (bytes : List Byte), exec i s = .next t ∧ t.responses = s.responses ++ [st :: bytes] ∧
      st ≠ 0x03 ∧ st ≠ 0x06 ∧ t.phase = s.phase ∧ t.radioLog = s.radioLog

/-- R24 (marked derived), with R11, R13, R14, R16, R17: which command writes which state. `CRCEN`: SETCRC; `ADDR`, `ALEN`,
`TXA`: CFGADDR; `FB`, `FLEN`, `PKTCNT`: SEND; `PHASE`: INIT and CFGADDR; the radio port, and with it the replies placed for its
calls: INIT, CFGADDR, SEND; the host's moves: none. -/
def Obligations.OnlyTheAccessTablesWritersWrite : Prop :=
  ∀ (i : Instr) (s t : State), exec i s = .next t →
    (t.crcen ≠ s.crcen → ∃ e, i = .setcrc e) ∧
    (t.addr ≠ s.addr ∨ t.alen ≠ s.alen ∨ t.txa ≠ s.txa → ∃ a alen, i = .cfgaddr a alen) ∧
    (t.fb ≠ s.fb ∨ t.flen ≠ s.flen ∨ t.pktcnt ≠ s.pktcnt → ∃ payload, i = .send payload) ∧
    (t.phase ≠ s.phase → i = .init ∨ ∃ a alen, i = .cfgaddr a alen) ∧
    (t.radioLog ≠ s.radioLog ∨ t.radioScript ≠ s.radioScript ∨ t.draws ≠ s.draws →
      i = .init ∨ (∃ a alen, i = .cfgaddr a alen) ∨ ∃ payload, i = .send payload) ∧
    t.inbox = s.inbox

/-- R43, R141 (marked derived): the calls and the response of a command come after all those of every earlier command; nothing on
either port is taken back; and each call made uses up one reply and counts once in `draws`. That both histories are fields of
State, and the replies' bookkeeping, is the model's choice (log entries 2, 5). -/
def Obligations.BothPortsHistoriesOnlyGrow : Prop :=
  ∀ (i : Instr) (s t : State), exec i s = .next t →
    (∃ calls, t.radioLog = s.radioLog ++ calls ∧ calls.length ≤ 8 ∧
      t.radioScript = s.radioScript.drop calls.length ∧ t.draws = s.draws + calls.length) ∧ ∃ response, t.responses = s.responses ++ [response]

/-- R15 (decisions D12, D25): "PHASE never goes backwards": a command keeps it, or INIT takes UNINIT to INITED or FAILED, or
CFGADDR takes INITED to READY. -/
def Obligations.PhaseMovesOnlyForward : Prop :=
  ∀ (i : Instr) (s t : State), exec i s = .next t →
    t.phase = s.phase ∨ (i = .init ∧ s.phase = .uninit ∧ (t.phase = .inited ∨ t.phase = .failed)) ∨
      ((∃ a alen, i = .cfgaddr a alen) ∧ s.phase = .inited ∧ t.phase = .ready)

/-- R138, R11: "After a successful CFGADDR the address and its length cannot be changed except by reset": a step from READY
that is not the reset event keeps the address and its length; it also keeps READY (R15; decision D12, log entry 10) and `TXA`
(R17), and makes no radio call but `write` (R124 (b), marked derived). -/
def Obligations.TheAddressIsWriteOnce : Prop :=
  ∀ s t : State, s.phase = .ready → s.inbox.head? ≠ some .reset → step s = .next t →
    t.phase = .ready ∧ t.addr = s.addr ∧ t.alen = s.alen ∧ t.txa = s.txa ∧
      ∃ calls, t.radioLog = s.radioLog ++ calls ∧ ∀ e ∈ calls, e.isWrite = true

/-- R102, R124 (d) (decision D25): FAILED is left only by reset, and until then no radio call is made. -/
def Obligations.FailedIsLeftOnlyByReset : Prop :=
  ∀ s : State, s.phase = .failed → s.inbox.head? ≠ some .reset →
    ∃ t, step s = .next t ∧ t.phase = .failed ∧ t.radioLog = s.radioLog

/-- R93, R94 (the wrap is decision D10): a command either makes no `write` call and leaves `PKTCNT`, or it is a SEND that makes
exactly one and adds 1, whatever the radio answered. -/
def Obligations.ThePacketCounterCountsWriteCalls : Prop :=
  ∀ (i : Instr) (s t : State), exec i s = .next t →
    (t.pktcnt = s.pktcnt ∧ ∃ calls, t.radioLog = s.radioLog ++ calls ∧ ∀ e ∈ calls, e.isWrite = false) ∨
    (∃ payload frame ok, i = .send payload ∧ t.pktcnt = s.pktcnt + 1 ∧ t.radioLog = s.radioLog ++ [.write frame ok])

/-! ### Invariants -/

/-- R23: the invariants hold after reset. -/
def Obligations.ResetMeetsTheInvariants : Prop := State.reset.Inv ∧ State.reset.RadioPromise

/-- R23 (marked derived): every step keeps the register and frame-buffer invariants, from every state that meets them. -/
def Obligations.EveryStepKeepsTheInvariants : Prop := ∀ s t : State, s.Inv → step s = .next t → t.Inv

/-- R124 (marked derived), R16, R17, R19: every step keeps the promise on the radio port: one `begin` answered true, the seven
configuration calls in order (decision D16), the two address calls, then `write` calls only, which `PKTCNT` counts and the last of
which handed over `FB[0 .. FLEN-1]`; after a `begin` answered false no call at all. `TXA` holds `PREAMBLE_ADDR(ALEN)`. That
`PKTCNT` is the count of `write` calls modulo 2^32 is R16 (10_state.md section 5) with the width and the wrap of decision D10 (log
entry 12, DESIGN CHOICE); U16 says no claim should depend on the wrap, and below 2^32 frames this one does not. -/
def Obligations.EveryStepKeepsTheRadioPromise : Prop :=
  ∀ s t : State, s.Inv → s.RadioPromise → step s = .next t → t.RadioPromise

/-- R30, R74, R135: no step, from any state whatever, reaches an index its space does not have (the model would stop by name
there: assumption 16). -/
def Obligations.NoStepLeavesAnIndexSpace : Prop := ∀ s : State, step s ≠ .fault .indexOutsideSpace

/-- R22 (marked derived), R125: from every state that meets R23 a step goes on, or the radio never returns (that the latter is the
fault `radioNeverReturns`, read from a script of replies, is the model's choice: log entries 2, 3). So no unwritten cell is read,
and every command is answered. -/
def Obligations.SafeStatesStopOnlyWithTheRadio : Prop := ∀ s : State, s.Inv → s.StopsOnlyWithTheRadio

/-- R22, R23, R124 (all three marked derived), R143: every run from reset, of any length, on any moves of the host and any answers
of the radio, goes on and keeps both invariants, as long as every radio call returns. `RadioPromise` carries the clauses of R16
(`PKTCNT` counts the `write` calls), R17 (`TXA`) and R19 (the last frame handed over is `FB[0 .. FLEN-1]`), the order of the calls
of decision D16, and the counter's wrap of D10 (log entry 12, DESIGN CHOICE). -/
def Obligations.EveryRunGoesOnWhileTheRadioReturns : Prop :=
  ∀ (k : Nat) (moves : List HostMove) (script : List RadioReply), RadioReply.never ∉ script →
    ∃ t : State,
      Host.Core.run Sys2Proof.core k ({ State.reset with inbox := moves, radioScript := script } : State) = .next t ∧
      t.Inv ∧ t.RadioPromise
end

