-- ==== Sys2Proof/Laws/Decode.lean ====
section
/-! SUPPORT. Small laws of the decoder: the opcode map is unambiguous, and what a decoded message looks like. -/

namespace Sys2Proof

/-- No two rows of the opcode map share a byte (R48). -/
theorem opcodeTable_unambiguous : opcodeTable.Pairwise fun r q => r.1 ≠ q.1 := by decide

/-- Every opcode has a row (R48). -/
theorem opcodeTable_complete (op : Opcode) : ∃ b, (b, op) ∈ opcodeTable := by cases op <;> simp [opcodeTable]

/-- What the decoder has checked of a message it accepts (R57). -/
theorem decode_ok {msg : List Byte} {i : Instr} (h : decode msg = .ok i) :
    ∃ b operands op, msg = b :: operands ∧ opcodeOf b = some op ∧ demandedLength op operands = some msg.length ∧
      operandFields op operands = some i := by
  cases msg with
  | nil => cases h
  | cons b operands =>
    simp only [decode] at h
    cases ho : opcodeOf b with
    | none => rw [ho] at h; cases h
    | some op =>
      rw [ho] at h
      simp only at h
      split_ifs at h with hl
      cases hf : operandFields op operands with
      | none => rw [hf] at h; cases h
      | some j => rw [hf] at h; cases h; exact ⟨b, operands, op, rfl, ho, hl, hf⟩

/-- A message of a mapped opcode and the demanded length decodes to the command its operands stand for (R57 (4)). -/
theorem decode_intro {b : Byte} {operands : List Byte} {op : Opcode} {i : Instr} (ho : opcodeOf b = some op)
    (hl : demandedLength op operands = some (b :: operands).length) (hf : operandFields op operands = some i) :
    decode (b :: operands) = .ok i := by
  simp only [decode, ho, hl, if_true, hf]

/-- An opcode the map gives has its row there (R48). -/
theorem opcodeOf_some {b : Byte} {op : Opcode} (h : opcodeOf b = some op) : (b, op) ∈ opcodeTable := by
  simp only [opcodeOf, opcodeTable, List.lookup] at h
  repeat' split at h
  all_goals first
    | (rename_i hb; cases h; rw [beq_iff_eq] at hb; subst hb; decide)
    | cases h

/-- The opcode byte of each opcode (R48). -/
theorem opcodeOf_byte {b : Byte} {op : Opcode} (h : opcodeOf b = some op) :
    b = match (motive := Opcode → Byte) op with
      | .bitrev => 0x01 | .whiten => 0x02 | .crc => 0x03 | .init => 0x10
      | .cfgaddr => 0x11 | .setcrc => 0x12 | .send => 0x20 | .rdcnt => 0x30 := by
  have hm := opcodeOf_some h
  cases op <;> simpa [opcodeTable] using hm

end Sys2Proof
end

