-- ==== Sys2Proof/Laws/Memory.lean ====
section
/-! SUPPORT. The laws of the frame buffer: read after write, the canonical form is kept by every operation, a canonical buffer
is determined by what it reads as, and one lemma each for a run of stores and a run of loads. -/

namespace Sys2Proof.Machine

@[simp] theorem readCell_nil (x : Nat) : readCell [] x = none := rfl

/-- A read after a write gives the value written, and every other index reads as before. -/
theorem readCell_writeCell (m : Memory) (x y : Nat) (v : Byte) :
    readCell (writeCell m x v) y = if y = x then some v else readCell m y := by
  induction m with
  | nil => simp only [writeCell, readCell, eq_comm]
  | cons c m ih =>
    obtain ⟨a, w⟩ := c
    simp only [writeCell]
    split_ifs <;> simp only [readCell, ih] <;> split_ifs <;> first | rfl | omega

/-- What a write lists is the cell written or a cell listed before. -/
theorem mem_writeCell {m : Memory} {x : Nat} {v : Byte} {c : Host.Cell} (h : c ∈ writeCell m x v) :
    c = (x, v) ∨ c ∈ m := by
  induction m with
  | nil => simpa [writeCell] using h
  | cons d m ih =>
    obtain ⟨a, w⟩ := d
    simp only [writeCell] at h
    split_ifs at h <;> simp only [List.mem_cons] at h ⊢ <;> tauto

/-- A write inside the buffer keeps the canonical form. -/
theorem writeCell_wf {m : Memory} {x : Nat} {v : Byte} (hm : m.wf) (hx : x < Config.fbSize) : (writeCell m x v).wf := by
  refine ⟨?_, fun c hc => (mem_writeCell hc).elim (fun e => e ▸ hx) (hm.2 c)⟩
  obtain ⟨hp, -⟩ := hm
  induction m with
  | nil => simp [writeCell]
  | cons d m ih =>
    obtain ⟨a, w⟩ := d
    obtain ⟨ha, hm⟩ := List.pairwise_cons.1 hp
    simp only [writeCell]
    split_ifs with h1 h2
    · exact List.pairwise_cons.2 ⟨fun c hc => by
        rcases List.mem_cons.1 hc with rfl | hc
        · exact h1
        · exact h1.trans (ha c hc), hp⟩
    · exact List.pairwise_cons.2 ⟨fun c hc => h2 ▸ ha c hc, hm⟩
    · exact List.pairwise_cons.2 ⟨fun c hc => by
        rcases mem_writeCell hc with rfl | hc
        · show a < x
          omega
        · exact ha c hc, ih hm⟩

/-- The buffer after reset is canonical. -/
theorem wf_reset : State.reset.fb.wf := by decide

/-- No index below the first listed one is written. -/
theorem readCell_below {m : Memory} {x : Nat} (h : ∀ c ∈ m, x < c.1) : readCell m x = none := by
  induction m with
  | nil => rfl
  | cons d m ih =>
    obtain ⟨a, w⟩ := d
    have : x < a := h (a, w) (by simp)
    simp only [readCell]
    rw [if_neg (by omega)]
    exact ih fun c hc => h c (List.mem_cons_of_mem _ hc)

/-- Two canonical buffers that read alike everywhere are the same data. -/
theorem memory_ext {m n : Memory} (hm : m.wf) (hn : n.wf) (h : ∀ x, readCell m x = readCell n x) : m = n := by
  obtain ⟨hm, -⟩ := hm
  obtain ⟨hn, -⟩ := hn
  induction m generalizing n with
  | nil =>
    cases n with
    | nil => rfl
    | cons d n => have := h d.1; simp [readCell] at this
  | cons c m ih =>
    cases n with
    | nil => have := h c.1; simp [readCell] at this
    | cons d n =>
      obtain ⟨a, v⟩ := c
      obtain ⟨b, w⟩ := d
      obtain ⟨ha, hm'⟩ := List.pairwise_cons.1 hm
      obtain ⟨hb, hn'⟩ := List.pairwise_cons.1 hn
      have first : a = b := by
        rcases Nat.lt_trichotomy a b with hab | hab | hab
        · have := h a
          rw [show readCell ((b, w) :: n) a = none from readCell_below fun c hc => by
            rcases List.mem_cons.1 hc with rfl | hc
            · exact hab
            · exact hab.trans (hb c hc)] at this
          simp [readCell] at this
        · exact hab
        · have := h b
          rw [show readCell ((a, v) :: m) b = none from readCell_below fun c hc => by
            rcases List.mem_cons.1 hc with rfl | hc
            · exact hab
            · exact hab.trans (ha c hc)] at this
          simp [readCell] at this
      subst first
      have value := h a
      simp only [readCell, if_true, Option.some.injEq] at value
      subst value
      congr 1
      refine ih (fun x => ?_) hm' hn'
      rcases Nat.lt_or_ge a x with hax | hax
      · have := h x
        simpa [readCell, Nat.ne_of_lt hax] using this
      · rw [readCell_below fun c hc => lt_of_le_of_lt hax (ha c hc),
          readCell_below fun c hc => lt_of_le_of_lt hax (hb c hc)]

/-- A write inside the buffer succeeds, one outside it is no access at all. -/
theorem fbWrite_inside {m : Memory} {a : Nat} {v : Byte} (h : a < Config.fbSize) :
    fbWrite m a v = .ok (writeCell m a v) := by simp [fbWrite, h]

/-- Everything a run of stores can do when it fits the buffer: it succeeds, the stored indices read as the bytes stored, every
other index reads as before, and the canonical form is kept. -/
theorem fbStore_spec (bs : List Byte) (m : Memory) (a : Nat) (h : a + bs.length ≤ Config.fbSize) :
    ∃ m', fbStore m a bs = .ok m' ∧
      (∀ x, readCell m' x = if a ≤ x ∧ x < a + bs.length then bs[x - a]? else readCell m x) ∧
      (m.wf → m'.wf) := by
  induction bs generalizing m a with
  | nil => exact ⟨m, rfl, fun x => by rw [if_neg]; simp, id⟩
  | cons v vs ih =>
    simp only [List.length_cons] at h
    have ha : a < Config.fbSize := by omega
    obtain ⟨m', hs, hr, hw⟩ := ih (writeCell m a v) (a + 1) (by omega)
    refine ⟨m', by simp only [fbStore, fbWrite_inside ha, hs], fun x => ?_, fun hm => hw (writeCell_wf hm ha)⟩
    rw [hr, readCell_writeCell]
    simp only [List.length_cons]
    rcases Nat.lt_trichotomy x a with hx | hx | hx
    · rw [if_neg (by omega), if_neg (by omega), if_neg (by omega)]
    · subst hx
      rw [if_neg (by omega), if_pos rfl, if_pos (by omega)]
      simp
    · by_cases hlt : x < a + 1 + vs.length
      · rw [if_pos (by omega), if_pos (by omega), show x - a = (x - (a + 1)) + 1 by omega]
        simp
      · rw [if_neg (by omega), if_neg (by omega), if_neg (by omega)]

/-- Two runs of stores one after the other are one run. -/
theorem fbStore_append (bs cs : List Byte) (m m' : Memory) (a : Nat) (h : fbStore m a bs = .ok m') :
    fbStore m a (bs ++ cs) = fbStore m' (a + bs.length) cs := by
  induction bs generalizing m a with
  | nil => cases h; rfl
  | cons v vs ih =>
    simp only [fbStore, List.cons_append] at h ⊢
    cases hw : fbWrite m a v with
    | error f => rw [hw] at h; cases h
    | ok n =>
      rw [hw] at h
      rw [show a + (v :: vs).length = a + 1 + vs.length by simp only [List.length_cons]; omega]
      exact ih n (a + 1) h

/-- A run of loads from written cells gives what they hold. -/
theorem fbLoad_spec (bs : List Byte) (m : Memory) (a : Nat) (h : a + bs.length ≤ Config.fbSize)
    (hr : ∀ k < bs.length, readCell m (a + k) = bs[k]?) : fbLoad m a bs.length = .ok bs := by
  induction bs generalizing a with
  | nil => rfl
  | cons v vs ih =>
    simp only [List.length_cons] at h
    have first : readCell m a = some v := by simpa using hr 0 (by simp)
    have rest : fbLoad m (a + 1) vs.length = .ok vs := ih (a + 1) (by omega) fun k hk => by
      have := hr (k + 1) (by simpa using hk)
      simpa [Nat.add_assoc, Nat.add_comm 1 k] using this
    simp only [List.length_cons, fbLoad, fbRead, if_pos (show a < Config.fbSize by omega), first, written, rest]

/-- A run of loads that succeeds gave the bytes its indices hold. -/
theorem fbLoad_reads {m : Memory} {a n : Nat} {bs : List Byte} (h : fbLoad m a n = .ok bs) :
    bs.length = n ∧ ∀ k < n, readCell m (a + k) = bs[k]? := by
  induction n generalizing a bs with
  | zero => cases h; simp
  | succ n ih =>
    simp only [fbLoad] at h
    cases hv : fbRead m a with
    | error f => rw [hv] at h; cases h
    | ok v =>
      cases hvs : fbLoad m (a + 1) n with
      | error f => rw [hv, hvs] at h; cases h
      | ok vs =>
        rw [hv, hvs] at h
        cases h
        obtain ⟨hl, hk⟩ := ih hvs
        refine ⟨by simp [hl], fun k hlt => ?_⟩
        cases k with
        | zero =>
          simp only [fbRead] at hv
          split_ifs at hv
          cases hc : readCell m a with
          | none => rw [hc] at hv; cases hv
          | some w => rw [hc] at hv; cases hv; simp
        | succ k =>
          have := hk k (by omega)
          simpa [Nat.add_assoc, Nat.add_comm 1 k] using this

end Sys2Proof.Machine
end

