-- ==== Sys2Proof/Laws/State.lean ====
section
/-! SUPPORT. One lemma per field per update of State, so that no proof unfolds a record update; what asking the radio can do;
and the reset state's invariants. -/

namespace Sys2Proof.Machine

@[simp] theorem respond_phase (st : Status) (bs : List Byte) (s : State) : (respond st bs s).phase = s.phase := rfl
@[simp] theorem respond_crcen (st : Status) (bs : List Byte) (s : State) : (respond st bs s).crcen = s.crcen := rfl
@[simp] theorem respond_pktcnt (st : Status) (bs : List Byte) (s : State) : (respond st bs s).pktcnt = s.pktcnt := rfl
@[simp] theorem respond_addr (st : Status) (bs : List Byte) (s : State) : (respond st bs s).addr = s.addr := rfl
@[simp] theorem respond_alen (st : Status) (bs : List Byte) (s : State) : (respond st bs s).alen = s.alen := rfl
@[simp] theorem respond_txa (st : Status) (bs : List Byte) (s : State) : (respond st bs s).txa = s.txa := rfl
@[simp] theorem respond_fb (st : Status) (bs : List Byte) (s : State) : (respond st bs s).fb = s.fb := rfl
@[simp] theorem respond_flen (st : Status) (bs : List Byte) (s : State) : (respond st bs s).flen = s.flen := rfl
@[simp] theorem respond_inbox (st : Status) (bs : List Byte) (s : State) : (respond st bs s).inbox = s.inbox := rfl
@[simp] theorem respond_responses (st : Status) (bs : List Byte) (s : State) : (respond st bs s).responses = s.responses ++ [st.code :: bs] := rfl
@[simp] theorem respond_radioLog (st : Status) (bs : List Byte) (s : State) : (respond st bs s).radioLog = s.radioLog := rfl
@[simp] theorem respond_radioScript (st : Status) (bs : List Byte) (s : State) : (respond st bs s).radioScript = s.radioScript := rfl
@[simp] theorem respond_draws (st : Status) (bs : List Byte) (s : State) : (respond st bs s).draws = s.draws := rfl

@[simp] theorem record_phase (calls : List RadioEvent) (s : State) : (record calls s).phase = s.phase := rfl
@[simp] theorem record_crcen (calls : List RadioEvent) (s : State) : (record calls s).crcen = s.crcen := rfl
@[simp] theorem record_pktcnt (calls : List RadioEvent) (s : State) : (record calls s).pktcnt = s.pktcnt := rfl
@[simp] theorem record_addr (calls : List RadioEvent) (s : State) : (record calls s).addr = s.addr := rfl
@[simp] theorem record_alen (calls : List RadioEvent) (s : State) : (record calls s).alen = s.alen := rfl
@[simp] theorem record_txa (calls : List RadioEvent) (s : State) : (record calls s).txa = s.txa := rfl
@[simp] theorem record_fb (calls : List RadioEvent) (s : State) : (record calls s).fb = s.fb := rfl
@[simp] theorem record_flen (calls : List RadioEvent) (s : State) : (record calls s).flen = s.flen := rfl
@[simp] theorem record_inbox (calls : List RadioEvent) (s : State) : (record calls s).inbox = s.inbox := rfl
@[simp] theorem record_responses (calls : List RadioEvent) (s : State) : (record calls s).responses = s.responses := rfl
@[simp] theorem record_radioLog (calls : List RadioEvent) (s : State) : (record calls s).radioLog = s.radioLog ++ calls := rfl
@[simp] theorem record_radioScript (calls : List RadioEvent) (s : State) : (record calls s).radioScript = s.radioScript := rfl
@[simp] theorem record_draws (calls : List RadioEvent) (s : State) : (record calls s).draws = s.draws := rfl

@[simp] theorem dropReplies_phase (n : Nat) (s : State) : (dropReplies n s).phase = s.phase := rfl
@[simp] theorem dropReplies_crcen (n : Nat) (s : State) : (dropReplies n s).crcen = s.crcen := rfl
@[simp] theorem dropReplies_pktcnt (n : Nat) (s : State) : (dropReplies n s).pktcnt = s.pktcnt := rfl
@[simp] theorem dropReplies_addr (n : Nat) (s : State) : (dropReplies n s).addr = s.addr := rfl
@[simp] theorem dropReplies_alen (n : Nat) (s : State) : (dropReplies n s).alen = s.alen := rfl
@[simp] theorem dropReplies_txa (n : Nat) (s : State) : (dropReplies n s).txa = s.txa := rfl
@[simp] theorem dropReplies_fb (n : Nat) (s : State) : (dropReplies n s).fb = s.fb := rfl
@[simp] theorem dropReplies_flen (n : Nat) (s : State) : (dropReplies n s).flen = s.flen := rfl
@[simp] theorem dropReplies_inbox (n : Nat) (s : State) : (dropReplies n s).inbox = s.inbox := rfl
@[simp] theorem dropReplies_responses (n : Nat) (s : State) : (dropReplies n s).responses = s.responses := rfl
@[simp] theorem dropReplies_radioLog (n : Nat) (s : State) : (dropReplies n s).radioLog = s.radioLog := rfl
@[simp] theorem dropReplies_radioScript (n : Nat) (s : State) : (dropReplies n s).radioScript = s.radioScript.drop n := rfl
@[simp] theorem dropReplies_draws (n : Nat) (s : State) : (dropReplies n s).draws = s.draws + n := rfl

@[simp] theorem emit_phase (calls : List RadioEvent) (s : State) : (emit calls s).phase = s.phase := rfl
@[simp] theorem emit_crcen (calls : List RadioEvent) (s : State) : (emit calls s).crcen = s.crcen := rfl
@[simp] theorem emit_pktcnt (calls : List RadioEvent) (s : State) : (emit calls s).pktcnt = s.pktcnt := rfl
@[simp] theorem emit_addr (calls : List RadioEvent) (s : State) : (emit calls s).addr = s.addr := rfl
@[simp] theorem emit_alen (calls : List RadioEvent) (s : State) : (emit calls s).alen = s.alen := rfl
@[simp] theorem emit_txa (calls : List RadioEvent) (s : State) : (emit calls s).txa = s.txa := rfl
@[simp] theorem emit_fb (calls : List RadioEvent) (s : State) : (emit calls s).fb = s.fb := rfl
@[simp] theorem emit_flen (calls : List RadioEvent) (s : State) : (emit calls s).flen = s.flen := rfl
@[simp] theorem emit_inbox (calls : List RadioEvent) (s : State) : (emit calls s).inbox = s.inbox := rfl
@[simp] theorem emit_responses (calls : List RadioEvent) (s : State) : (emit calls s).responses = s.responses := rfl
@[simp] theorem emit_radioLog (calls : List RadioEvent) (s : State) : (emit calls s).radioLog = s.radioLog ++ calls := rfl
@[simp] theorem emit_radioScript (calls : List RadioEvent) (s : State) : (emit calls s).radioScript = s.radioScript.drop calls.length := rfl
@[simp] theorem emit_draws (calls : List RadioEvent) (s : State) : (emit calls s).draws = s.draws + calls.length := rfl

@[simp] theorem setCrcen_phase (e : Bool) (s : State) : (setCrcen e s).phase = s.phase := rfl
@[simp] theorem setCrcen_crcen (e : Bool) (s : State) : (setCrcen e s).crcen = e := rfl
@[simp] theorem setCrcen_pktcnt (e : Bool) (s : State) : (setCrcen e s).pktcnt = s.pktcnt := rfl
@[simp] theorem setCrcen_addr (e : Bool) (s : State) : (setCrcen e s).addr = s.addr := rfl
@[simp] theorem setCrcen_alen (e : Bool) (s : State) : (setCrcen e s).alen = s.alen := rfl
@[simp] theorem setCrcen_txa (e : Bool) (s : State) : (setCrcen e s).txa = s.txa := rfl
@[simp] theorem setCrcen_fb (e : Bool) (s : State) : (setCrcen e s).fb = s.fb := rfl
@[simp] theorem setCrcen_flen (e : Bool) (s : State) : (setCrcen e s).flen = s.flen := rfl
@[simp] theorem setCrcen_inbox (e : Bool) (s : State) : (setCrcen e s).inbox = s.inbox := rfl
@[simp] theorem setCrcen_responses (e : Bool) (s : State) : (setCrcen e s).responses = s.responses := rfl
@[simp] theorem setCrcen_radioLog (e : Bool) (s : State) : (setCrcen e s).radioLog = s.radioLog := rfl
@[simp] theorem setCrcen_radioScript (e : Bool) (s : State) : (setCrcen e s).radioScript = s.radioScript := rfl
@[simp] theorem setCrcen_draws (e : Bool) (s : State) : (setCrcen e s).draws = s.draws := rfl

@[simp] theorem withInbox_phase (moves : List HostMove) (s : State) : (withInbox moves s).phase = s.phase := rfl
@[simp] theorem withInbox_crcen (moves : List HostMove) (s : State) : (withInbox moves s).crcen = s.crcen := rfl
@[simp] theorem withInbox_pktcnt (moves : List HostMove) (s : State) : (withInbox moves s).pktcnt = s.pktcnt := rfl
@[simp] theorem withInbox_addr (moves : List HostMove) (s : State) : (withInbox moves s).addr = s.addr := rfl
@[simp] theorem withInbox_alen (moves : List HostMove) (s : State) : (withInbox moves s).alen = s.alen := rfl
@[simp] theorem withInbox_txa (moves : List HostMove) (s : State) : (withInbox moves s).txa = s.txa := rfl
@[simp] theorem withInbox_fb (moves : List HostMove) (s : State) : (withInbox moves s).fb = s.fb := rfl
@[simp] theorem withInbox_flen (moves : List HostMove) (s : State) : (withInbox moves s).flen = s.flen := rfl
@[simp] theorem withInbox_inbox (moves : List HostMove) (s : State) : (withInbox moves s).inbox = moves := rfl
@[simp] theorem withInbox_responses (moves : List HostMove) (s : State) : (withInbox moves s).responses = s.responses := rfl
@[simp] theorem withInbox_radioLog (moves : List HostMove) (s : State) : (withInbox moves s).radioLog = s.radioLog := rfl
@[simp] theorem withInbox_radioScript (moves : List HostMove) (s : State) : (withInbox moves s).radioScript = s.radioScript := rfl
@[simp] theorem withInbox_draws (moves : List HostMove) (s : State) : (withInbox moves s).draws = s.draws := rfl

@[simp] theorem resetBlock_phase (s : State) : (resetBlock s).phase = .uninit := rfl
@[simp] theorem resetBlock_crcen (s : State) : (resetBlock s).crcen = true := rfl
@[simp] theorem resetBlock_pktcnt (s : State) : (resetBlock s).pktcnt = 0 := rfl
@[simp] theorem resetBlock_addr (s : State) : (resetBlock s).addr = none := rfl
@[simp] theorem resetBlock_alen (s : State) : (resetBlock s).alen = none := rfl
@[simp] theorem resetBlock_txa (s : State) : (resetBlock s).txa = none := rfl
@[simp] theorem resetBlock_fb (s : State) : (resetBlock s).fb = [] := rfl
@[simp] theorem resetBlock_flen (s : State) : (resetBlock s).flen = 0 := rfl
@[simp] theorem resetBlock_inbox (s : State) : (resetBlock s).inbox = s.inbox := rfl
@[simp] theorem resetBlock_responses (s : State) : (resetBlock s).responses = [] := rfl
@[simp] theorem resetBlock_radioLog (s : State) : (resetBlock s).radioLog = [] := rfl
@[simp] theorem resetBlock_radioScript (s : State) : (resetBlock s).radioScript = s.radioScript := rfl
@[simp] theorem resetBlock_draws (s : State) : (resetBlock s).draws = s.draws := rfl

@[simp] theorem refuse_eq_respond (st : Status) (s : State) : refuse st s = respond st [] s := rfl

/-- A call that hangs is a reply the environment placed. -/
theorem radioHangs_iff (n : Nat) (s : State) : radioHangs n s = true ↔ RadioReply.never ∈ s.radioScript.take n := by
  simp [radioHangs]

/-- Everything asking the radio can do: the placed reply is used up, or the answer is the free one, or the call hangs. -/
theorem askRadio_cases (s : State) :
    (∃ b, askRadio s = .ok (b, { s with radioScript := s.radioScript.tail, draws := s.draws + 1 }) ∧
      s.radioScript.head? ≠ some .never ∧ ∀ c, s.radioScript.head? = some (.answer c) → b = c) ∨
    (askRadio s = .error .radioNeverReturns ∧ s.radioScript.head? = some .never) := by
  cases h : s.radioScript with
  | nil => exact .inl ⟨Config.radioAnswer s.draws, by simp [askRadio, h], by simp, by simp⟩
  | cons r rest =>
    cases r with
    | answer b => exact .inl ⟨b, by simp [askRadio, h], by simp, by simp⟩
    | never => exact .inr ⟨by simp [askRadio, h], by simp⟩

/-- The radio answers unless the environment placed a call that never returns. -/
theorem askRadio_answers (s : State) (h : s.radioScript.head? ≠ some .never) :
    ∃ b, askRadio s = .ok (b, { s with radioScript := s.radioScript.tail, draws := s.draws + 1 }) ∧
      ∀ c, s.radioScript.head? = some (.answer c) → b = c := by
  obtain ⟨b, hb, -, hc⟩ | ⟨-, hn⟩ := askRadio_cases s
  · exact ⟨b, hb, hc⟩
  · exact absurd hn h

/-- The radio's answer uses up one reply and one draw; it never changes the block. -/
theorem askRadio_state {s t : State} {b : Bool} (h : askRadio s = .ok (b, t)) :
    t = { s with radioScript := s.radioScript.tail, draws := s.draws + 1 } := by
  obtain ⟨c, hc, -⟩ | ⟨he, -⟩ := askRadio_cases s
  · rw [hc] at h; cases h; rfl
  · rw [he] at h; cases h

/-- The one way asking the radio stops. -/
theorem askRadio_error {s : State} {f : Fault} (h : askRadio s = .error f) :
    f = .radioNeverReturns ∧ s.radioScript.head? = some .never := by
  obtain ⟨c, hc, -⟩ | ⟨he, hn⟩ := askRadio_cases s
  · rw [hc] at h; cases h
  · rw [he] at h; cases h; exact ⟨rfl, hn⟩

end Sys2Proof.Machine
end

