-- ==== Sys2Proof/Laws/Framer.lean ====
section
/-! SUPPORT. What SEND does once its checks have passed, said once: the frame as one list of bytes, and `sendFrame` as one
store of it into the buffer and one hand-over to the radio. -/

namespace Sys2Proof.Machine

/-- The scramble table has at least 32 entries, whatever it is (R6, R7). -/
theorem scramble_length (p : Config.Params) : 32 ≤ p.scramble.length := by
  simp [Config.Params.scramble]

/-- The XOR-out table is never empty (R7). -/
theorem xorout_length (p : Config.Params) : 0 < p.xorout.length := by simp [Config.Params.xorout]

/-- A whitened run inside the table is the run exclusive-ored with the table entries it meets. -/
theorem whitenRun_inside (p : Config.Params) (i : Nat) (bs : List Byte) (h : i + bs.length ≤ p.scramble.length) :
    whitenRun p i bs = some (List.zipWith (· ^^^ ·) bs (p.scramble.drop i)) := by
  induction bs generalizing i with
  | nil => rfl
  | cons b bs ih =>
    simp only [List.length_cons] at h
    have hi : i < p.scramble.length := by omega
    simp only [whitenRun, whitenByte, romS, List.getElem?_eq_getElem hi, Option.map_some, ih (i + 1) (by omega),
      List.drop_eq_getElem_cons hi, List.zipWith_cons_cons]

/-- A register block has `ADDR_BYTES` bytes (R5). -/
theorem bytes5_length (v : Bytes5) : v.toList.length = Config.addrBytes := rfl

@[simp] theorem onAirAddress_length (addr : Bytes5) (alen : AddrLen) : (onAirAddress addr alen).length = alen.toNat := by
  cases alen <;> rfl

@[simp] theorem onAirPayload_length (payload : List Byte) : (onAirPayload payload).length = payload.length := by
  simp [onAirPayload]

@[simp] theorem fillerField_length (alen : AddrLen) : (fillerField alen).length = fillerLen alen := by cases alen <;> rfl

@[simp] theorem bigEndian16_length (v : Half) : (bigEndian16 v).length = 2 := rfl

/-- The whitened address and payload bytes of a frame, in on-air order. -/
def airBytes (p : Config.Params) (addr : Bytes5) (alen : AddrLen) (payload : List Byte) : List Byte :=
  List.zipWith (· ^^^ ·) (onAirAddress addr alen ++ onAirPayload payload) p.scramble

/-- The CRC bytes of a frame, none when the CRC is off (R91). -/
def crcField (p : Config.Params) (addr : Bytes5) (alen : AddrLen) (crcen : Bool) (payload : List Byte) : List Byte :=
  if crcen then
    match romX p (xorIndex alen payload.length) with
    | some x => bigEndian16 (computeCrc (airBytes p addr alen payload) x)
    | none => []
  else []

/-- The frame of R89. -/
def frameOf (p : Config.Params) (addr : Bytes5) (alen : AddrLen) (crcen : Bool) (payload : List Byte) : List Byte :=
  fillerField alen ++ airBytes p addr alen payload ++ crcField p addr alen crcen payload

theorem airBytes_length {p : Config.Params} {alen : AddrLen} {payload : List Byte} (addr : Bytes5)
    (h : alen.toNat + payload.length ≤ p.scramble.length) :
    (airBytes p addr alen payload).length = alen.toNat + payload.length := by
  simp [airBytes, h]

theorem crcField_length {p : Config.Params} {alen : AddrLen} {payload : List Byte} (addr : Bytes5) (crcen : Bool)
    (h : xorIndex alen payload.length < p.xorout.length) :
    (crcField p addr alen crcen payload).length = crcTrailerLen crcen := by
  cases crcen
  · rfl
  · simp [crcField, romX, List.getElem?_eq_getElem h, crcTrailerLen, Config.crcBytes]

/-- `FLEN = f + ALEN + n + c` (R33, R95). -/
theorem frameOf_length {p : Config.Params} {alen : AddrLen} {crcen : Bool} {payload : List Byte} (addr : Bytes5)
    (h : sizesOk p alen crcen payload.length) :
    (frameOf p addr alen crcen payload).length =
      fillerLen alen + alen.toNat + payload.length + crcTrailerLen crcen := by
  simp only [frameOf, List.length_append, fillerField_length, airBytes_length addr h.1, crcField_length addr crcen h.2.1]
  omega

/-- The assembly of R90 stores filler and whitened bytes from index 0 on. -/
theorem assemble_eq {p : Config.Params} {alen : AddrLen} {payload : List Byte} (addr : Bytes5) (fb : Memory)
    (h : alen.toNat + payload.length ≤ p.scramble.length) :
    assemble p addr alen payload fb =
      (fbStore fb 0 (fillerField alen ++ airBytes p addr alen payload)).map
        (·, (fillerField alen ++ airBytes p addr alen payload).length) := by
  have hw := whitenRun_inside p 0 (onAirAddress addr alen ++ onAirPayload payload) (by simpa using h)
  rw [List.drop_zero] at hw
  simp only [assemble, hw, inSpace, bind, Except.bind, airBytes]
  cases fbStore fb 0 (fillerField alen ++ List.zipWith (· ^^^ ·) (onAirAddress addr alen ++ onAirPayload payload) p.scramble) <;>
    rfl

/-- SEND after its checks is one store of the whole frame and one hand-over of it (R90 to R92). -/
theorem sendFrame_eq {p : Config.Params} {alen : AddrLen} {payload : List Byte} {s : State} {addr : Bytes5}
    (ha : s.addr = some addr) (h : sizesOk p alen s.crcen payload.length) :
    ∃ m, fbStore s.fb 0 (frameOf p addr alen s.crcen payload) = .ok m ∧
      (∀ x, readCell m x = if x < (frameOf p addr alen s.crcen payload).length then
        (frameOf p addr alen s.crcen payload)[x]? else readCell s.fb x) ∧
      (s.fb.wf → m.wf) ∧
      fbLoad m 0 (frameOf p addr alen s.crcen payload).length = .ok (frameOf p addr alen s.crcen payload) ∧
      sendFrame p alen payload s = transmit (frameOf p addr alen s.crcen payload)
        { s with fb := m, flen := (frameOf p addr alen s.crcen payload).length } := by
  have hlen := frameOf_length addr h
  have hair := airBytes_length addr h.1
  have hcrc := crcField_length addr s.crcen h.2.1
  have hfit : 0 + (frameOf p addr alen s.crcen payload).length ≤ Config.fbSize := by rw [hlen]; simpa using h.2.2
  obtain ⟨m, hs, hr, hw⟩ := fbStore_spec _ s.fb 0 hfit
  have hread : ∀ x, readCell m x = if x < (frameOf p addr alen s.crcen payload).length then
      (frameOf p addr alen s.crcen payload)[x]? else readCell s.fb x := fun x => by simpa using hr x
  have hload : fbLoad m 0 (frameOf p addr alen s.crcen payload).length = .ok (frameOf p addr alen s.crcen payload) :=
    fbLoad_spec _ m 0 hfit fun k hk => by rw [hread, Nat.zero_add, if_pos hk]
  refine ⟨m, hs, hread, hw, hload, ?_⟩
  -- the body first, then the CRC bytes
  have hbody : 0 + (fillerField alen ++ airBytes p addr alen payload).length ≤ Config.fbSize := by
    have := h.2.2
    simp only [List.length_append, fillerField_length, hair]
    omega
  obtain ⟨mb, hbs, hbr, -⟩ := fbStore_spec (fillerField alen ++ airBytes p addr alen payload) s.fb 0 hbody
  have hall := fbStore_append _ (crcField p addr alen s.crcen payload) s.fb mb 0 hbs
  rw [Nat.zero_add] at hall
  have hcov : fbLoad mb (fillerLen alen) (alen.toNat + payload.length) = .ok (airBytes p addr alen payload) := by
    rw [← hair]
    refine fbLoad_spec _ mb _ (by simpa [Nat.add_assoc] using hbody) fun k hk => ?_
    rw [hbr, if_pos ⟨by omega, by simp; omega⟩]
    simp [List.getElem?_append_right]
  have hcrcStep : appendCrc p alen s.crcen payload.length mb
      (fillerField alen ++ airBytes p addr alen payload).length =
      .ok (m, (frameOf p addr alen s.crcen payload).length) := by
    have hs' := hs
    rw [frameOf, hall] at hs'
    cases hc : s.crcen with
    | false =>
      simp only [hc, crcField, Bool.false_eq_true, if_false, fbStore] at hs'
      cases hs'
      simp [appendCrc, frameOf, crcField]
    | true =>
      simp only [hc, crcField, if_true, romX, List.getElem?_eq_getElem h.2.1, List.length_append] at hs'
      simp only [appendCrc, if_true, hcov, romX, List.getElem?_eq_getElem h.2.1, inSpace, bind, Except.bind, hs', pure,
        Except.pure, frameOf, crcField, List.length_append, bigEndian16_length, Config.crcBytes]
  simp only [sendFrame, ha, written, assemble_eq addr s.fb h.1, hbs, Except.map, hcrcStep, hload, bind, Except.bind]

/-- Everything the hand-over can do (R92, R93): one `write`, counted whatever the answer, or the radio never returns. -/
theorem transmit_cases (frame : List Byte) (s : State) :
    (∃ ok, transmit frame s = .ok { s with
        pktcnt := s.pktcnt + 1, radioLog := s.radioLog ++ [.write frame ok],
        responses := s.responses ++ [[if ok then 0x00 else 0x01]],
        radioScript := s.radioScript.tail, draws := s.draws + 1 } ∧
      s.radioScript.head? ≠ some .never ∧ ∀ c, s.radioScript.head? = some (.answer c) → ok = c) ∨
    (transmit frame s = .error .radioNeverReturns ∧ s.radioScript.head? = some .never) := by
  obtain ⟨b, hb, hn, hc⟩ | ⟨he, hn⟩ := askRadio_cases s
  · refine .inl ⟨b, ?_, hn, hc⟩
    simp only [transmit, hb, bind, Except.bind, pure, Except.pure, record, respond]
    cases b <;> rfl
  · exact .inr ⟨by simp only [transmit, he, bind, Except.bind], hn⟩

end Sys2Proof.Machine
end

