-- ==== Sys2Proof/Laws/Exec.lean ====
section
/-! SUPPORT. Everything one command can do, said once (`exec_effect`), for the invariants and the whole-machine rules to cite
instead of unfolding `exec`. -/

namespace Sys2Proof.Machine

/-- The commands that read and answer, and write no state (R24). -/
def readsOnly : Instr → Bool
  | .bitrev _ | .whiten _ _ | .crc _ _ _ _ _ | .rdcnt => true
  | .init | .cfgaddr _ _ | .setcrc _ | .send _ => false

/-- The commands that need the radio, the ones R113 admits by phase. -/
def needsRadio : Instr → Bool
  | .init | .cfgaddr _ _ | .send _ => true
  | .bitrev _ | .whiten _ _ | .crc _ _ _ _ _ | .setcrc _ | .rdcnt => false

/-- The state once the radio has answered one question. -/
def answered (s : State) : State := { s with radioScript := s.radioScript.tail, draws := s.draws + 1 }

/-- A successful INIT in one update: its eight calls, recorded and used up (R101). -/
theorem afterBegin_true (p : Config.Params) (s : State) :
    afterBegin p true (answered s) = { s with
      phase := .inited, radioLog := s.radioLog ++ (.begin true :: bringUpCalls p), responses := s.responses ++ [[0x00]],
      radioScript := s.radioScript.drop 8, draws := s.draws + 8 } := by
  simp [afterBegin, answered, respond, emit, record, dropReplies, bringUpCalls, Status.code]

/-- A failed INIT in one update: `begin` alone (R102). -/
theorem afterBegin_false (p : Config.Params) (s : State) :
    afterBegin p false (answered s) = { s with
      phase := .failed, radioLog := s.radioLog ++ [.begin false], responses := s.responses ++ [[0x06]],
      radioScript := s.radioScript.drop 1, draws := s.draws + 1 } := by
  simp [afterBegin, answered, respond, record, Status.code]

/-- A successful CFGADDR in one update: its two calls, recorded and used up (R82). -/
theorem respond_storeAddress (p : Config.Params) (a : Bytes5) (n : AddrLen) (s : State) :
    respond .ok [] (storeAddress p a n s) = { s with
      addr := some a, alen := some n, txa := some (p.preambleAddr n), phase := .ready,
      radioLog := s.radioLog ++ addressCalls p n, responses := s.responses ++ [[0x00]],
      radioScript := s.radioScript.drop 2, draws := s.draws + 2 } := rfl

/-- The state after a SEND that reached the radio (R90 to R93), for the buffer, the frame and the answer it had. -/
def sentState (m : Memory) (frame : List Byte) (ok : Bool) (s : State) : State :=
  { s with
    fb := m, flen := frame.length, pktcnt := s.pktcnt + 1, radioLog := s.radioLog ++ [.write frame ok],
    responses := s.responses ++ [[if ok then 0x00 else 0x01]],
    radioScript := s.radioScript.tail, draws := s.draws + 1 }

/-- Every outcome a command can have. -/
inductive Effect : Instr → State → Host.Outcome State Fault Refusal → Prop
  | answered {i s} (bytes : List Byte) (h : readsOnly i = true) : Effect i s (.next (respond .ok bytes s))
  | refused {i s} (st : Status) (hst : st ≠ .ok ∧ st ≠ .txFail) (hf : st = .failed → s.phase = .failed)
      (hr : needsRadio i = false → st ≠ .badPhase ∧ st ≠ .failed) :
      Effect i s (.next (respond st [] s))
  | crcSwitched {e s} (he : e.toNat ≤ 1) : Effect (.setcrc e) s (.next (respond .ok [] (setCrcen (e.toNat == 1) s)))
  | begun {s} (ok : Bool) (hp : s.phase = .uninit) (hn : s.radioScript.head? ≠ some .never)
      (hc : ∀ c, s.radioScript.head? = some (.answer c) → ok = c)
      (h8 : ok = true → .never ∉ s.radioScript.take 8) :
      Effect .init s (.next (afterBegin config ok (Machine.answered s)))
  | addressed {a b s} (n : AddrLen) (hp : s.phase = .inited) (hb : b.toNat = n.toNat)
      (h2 : .never ∉ s.radioScript.take 2) :
      Effect (.cfgaddr a b) s (.next (respond .ok [] (storeAddress config a n s)))
  | sent {payload s} (addr : Bytes5) (alen : AddrLen) (ok : Bool) (m : Memory) (hp : s.phase = .ready)
      (ha : s.addr = some addr) (hl : s.alen = some alen) (hs : sizesOk config alen s.crcen payload.length)
      (hn : s.radioScript.head? ≠ some .never) (hc : ∀ c, s.radioScript.head? = some (.answer c) → ok = c)
      (hr : ∀ x, readCell m x = if x < (frameOf config addr alen s.crcen payload).length then
        (frameOf config addr alen s.crcen payload)[x]? else readCell s.fb x)
      (hw : s.fb.wf → m.wf)
      (hm : fbLoad m 0 (frameOf config addr alen s.crcen payload).length =
        .ok (frameOf config addr alen s.crcen payload)) :
      Effect (.send payload) s (.next (sentState m (frameOf config addr alen s.crcen payload) ok s))
  | hung {i s} (n : Nat) (hi : i = .init ∧ s.phase = .uninit ∧ n = 8 ∨
        (∃ a b, i = .cfgaddr a b) ∧ s.phase = .inited ∧ n = 2 ∨ (∃ payload, i = .send payload) ∧ s.phase = .ready ∧ n = 1)
      (hn : .never ∈ s.radioScript.take n) : Effect i s (.fault .radioNeverReturns)
  | unwritten {payload s} (hp : s.phase = .ready) (hu : s.addr = none ∨ s.alen = none) :
      Effect (.send payload) s (.fault .unwrittenRead)

/-- The next reply is among the next ones. -/
theorem mem_take_of_head? {r : RadioReply} {n : Nat} {l : List RadioReply} (h : l.head? = some r) : r ∈ l.take (n + 1) := by
  cases l with
  | nil => cases h
  | cons a l => cases h; simp

/-- A reply among those after the next one is among the next ones. -/
theorem mem_take_succ_of_tail {r : RadioReply} {n : Nat} {l : List RadioReply} (h : r ∈ l.tail.take n) :
    r ∈ l.take (n + 1) := by
  cases l with
  | nil => simp at h
  | cons a l => simpa using .inr h

/-- A reply that is neither the next one nor among those after it is not among the next ones. -/
theorem not_mem_take_succ {r : RadioReply} {n : Nat} {l : List RadioReply} (h : l.head? ≠ some r) (ht : r ∉ l.tail.take n) :
    r ∉ l.take (n + 1) := by
  cases l with
  | nil => simp
  | cons a l => simpa [Ne.symm (by simpa using h : a ≠ r)] using ht

/-- The length check accepts exactly 3, 4 and 5 (R81). -/
theorem addrLenOf_toNat {b : Byte} (n : AddrLen) (h : b.toNat = n.toNat) : addrLenOf b = some n := by
  cases n <;> simp only [AddrLen.toNat] at h <;> simp [addrLenOf, unsigned, h]

/-- The length check rejects exactly the values outside `ALEN_MIN .. ALEN_MAX` (R5, R81). -/
theorem addrLenOf_none {b : Byte} : addrLenOf b = none ↔ b.toNat < Config.alenMin ∨ Config.alenMax < b.toNat := by
  show _ ↔ b.toNat < 3 ∨ 5 < b.toNat
  by_cases h3 : b.toNat = 3
  · simp [addrLenOf_toNat .three h3, h3]
  by_cases h4 : b.toNat = 4
  · simp [addrLenOf_toNat .four h4, h4]
  by_cases h5 : b.toNat = 5
  · simp [addrLenOf_toNat .five h5, h5]
  simp only [addrLenOf, unsigned, h3, h4, h5, if_false, true_iff]
  omega

/-- An accepted length operand has the value of the length it gives (R81). -/
theorem addrLenOf_some {b : Byte} {n : AddrLen} (h : addrLenOf b = some n) : b.toNat = n.toNat := by
  have hn : addrLenOf b ≠ none := by simp [h]
  rw [ne_eq, addrLenOf_none, not_or, not_lt, not_lt, Config.alenMin, Config.alenMax] at hn
  obtain h3 | h4 | h5 : b.toNat = 3 ∨ b.toNat = 4 ∨ b.toNat = 5 := by omega
  · rw [addrLenOf_toNat .three h3] at h; cases h; exact h3
  · rw [addrLenOf_toNat .four h4] at h; cases h; exact h4
  · rw [addrLenOf_toNat .five h5] at h; cases h; exact h5

/-- Everything SEND can do once its phase and size checks have passed (R90 to R93). -/
theorem sendFrame_cases {p : Config.Params} {alen : AddrLen} {payload : List Byte} {s : State} {addr : Bytes5}
    (ha : s.addr = some addr) (h : sizesOk p alen s.crcen payload.length) :
    ∃ m, (∀ x, readCell m x = if x < (frameOf p addr alen s.crcen payload).length then
        (frameOf p addr alen s.crcen payload)[x]? else readCell s.fb x) ∧
      (s.fb.wf → m.wf) ∧
      fbLoad m 0 (frameOf p addr alen s.crcen payload).length = .ok (frameOf p addr alen s.crcen payload) ∧
      ((∃ ok, sendFrame p alen payload s = .ok (sentState m (frameOf p addr alen s.crcen payload) ok s) ∧
        s.radioScript.head? ≠ some .never ∧ ∀ c, s.radioScript.head? = some (.answer c) → ok = c) ∨
      (sendFrame p alen payload s = .error .radioNeverReturns ∧ s.radioScript.head? = some .never)) := by
  obtain ⟨m, -, hr, hw, hl, he⟩ := sendFrame_eq ha h
  refine ⟨m, hr, hw, hl, ?_⟩
  obtain ⟨ok, ht, hn, hc⟩ | ⟨ht, hn⟩ := transmit_cases (frameOf p addr alen s.crcen payload)
    { s with fb := m, flen := (frameOf p addr alen s.crcen payload).length }
  · exact .inl ⟨ok, he.trans ht, hn, hc⟩
  · exact .inr ⟨he.trans ht, hn⟩

theorem execBitrev_effect (b : Byte) (s : State) : Effect (.bitrev b) s (execBitrev b s) := .answered _ rfl

theorem execWhiten_effect (b k : Byte) (s : State) : Effect (.whiten b k) s (execWhiten b k s) := by
  simp only [execWhiten, whitenUnder]
  cases whitenByte config b (unsigned k) with
  | none => exact .refused .range (by decide) (by simp) (by simp)
  | some r => exact .answered [r] rfl

theorem execCrc_effect (alen plen off len : Byte) (buf : List Byte) (s : State) :
    Effect (.crc alen plen off len buf) s (execCrc alen plen off len buf s) := by
  simp only [execCrc, crcUnder]
  cases xorEntry config alen (unsigned plen) with
  | none => exact .refused .cfgErr (by decide) (by simp) (by simp)
  | some x => exact .answered _ rfl

theorem execInit_effect (s : State) : Effect .init s (execInit s) := by
  simp only [execInit, initUnder]
  cases hp : s.phase with
  | failed => exact .refused .failed (by decide) (fun _ => hp) (by simp [needsRadio])
  | inited => exact .refused .badPhase (by decide) (by simp) (by simp [needsRadio])
  | ready => exact .refused .badPhase (by decide) (by simp) (by simp [needsRadio])
  | uninit =>
    obtain ⟨b, hb, hn, hc⟩ | ⟨he, hn⟩ := askRadio_cases s
    · simp only [hb]
      split_ifs with hh
      · rw [Bool.and_eq_true, radioHangs_iff] at hh
        exact .hung 8 (.inl ⟨rfl, hp, rfl⟩) (mem_take_succ_of_tail hh.1)
      · refine .begun b hp hn hc fun hb => ?_
        rw [hb, Bool.and_true, radioHangs_iff] at hh
        exact not_mem_take_succ hn hh
    · simp only [he]; exact .hung 8 (.inl ⟨rfl, hp, rfl⟩) (mem_take_of_head? hn)

theorem execCfgaddr_effect (a : Bytes5) (alen : Byte) (s : State) : Effect (.cfgaddr a alen) s (execCfgaddr a alen s) := by
  simp only [execCfgaddr, cfgaddrUnder]
  cases hp : s.phase with
  | failed => exact .refused .failed (by decide) (fun _ => hp) (by simp [needsRadio])
  | uninit => exact .refused .badPhase (by decide) (by simp) (by simp [needsRadio])
  | ready => exact .refused .badPhase (by decide) (by simp) (by simp [needsRadio])
  | inited =>
    cases hn : addrLenOf alen with
    | none => exact .refused .cfgErr (by decide) (by simp) (by simp)
    | some n =>
      simp only
      split_ifs with hh
      · exact .hung 2 (.inr (.inl ⟨⟨a, alen, rfl⟩, hp, rfl⟩)) ((radioHangs_iff 2 s).1 hh)
      · exact .addressed n hp (addrLenOf_some hn) ((radioHangs_iff 2 s).not.1 hh)

theorem execSetcrc_effect (e : Byte) (s : State) : Effect (.setcrc e) s (execSetcrc e s) := by
  rcases Nat.lt_or_ge 1 e.toNat with h | h
  · simp only [execSetcrc, unsigned, if_pos h]; exact .refused .illegal (by decide) (by simp) (by simp)
  · simp only [execSetcrc, unsigned, if_neg (Nat.not_lt.2 h)]; exact .crcSwitched h

theorem execSend_effect (payload : List Byte) (s : State) : Effect (.send payload) s (execSend payload s) := by
  simp only [execSend, sendUnder]
  cases hp : s.phase with
  | failed => exact .refused .failed (by decide) (fun _ => hp) (by simp [needsRadio])
  | uninit => exact .refused .badPhase (by decide) (by simp) (by simp [needsRadio])
  | inited => exact .refused .badPhase (by decide) (by simp) (by simp [needsRadio])
  | ready =>
    cases hl : s.alen with
    | none => exact .unwritten hp (.inr hl)
    | some alen =>
      simp only [written]
      split_ifs with hs
      · cases ha : s.addr with
        | none => simp only [sendFrame, ha, written, bind, Except.bind]; exact .unwritten hp (.inl ha)
        | some addr =>
          obtain ⟨m, hr, hw, hm, ⟨ok, he, hn, hc⟩ | ⟨he, hn⟩⟩ := sendFrame_cases ha hs
          · simp only [he]; exact .sent addr alen ok m hp ha hl hs hn hc hr hw hm
          · simp only [he]; exact .hung 1 (.inr (.inr ⟨⟨payload, rfl⟩, hp, rfl⟩)) (mem_take_of_head? hn)
      · exact .refused .cfgErr (by decide) (by simp) (by simp)

theorem execRdcnt_effect (s : State) : Effect .rdcnt s (execRdcnt s) := .answered _ rfl

/-- Everything a command can do. -/
theorem exec_effect (i : Instr) (s : State) : Effect i s (exec i s) := by
  cases i with
  | bitrev b => exact execBitrev_effect b s
  | whiten b k => exact execWhiten_effect b k s
  | crc alen plen off len buf => exact execCrc_effect alen plen off len buf s
  | init => exact execInit_effect s
  | cfgaddr a alen => exact execCfgaddr_effect a alen s
  | setcrc e => exact execSetcrc_effect e s
  | send payload => exact execSend_effect payload s
  | rdcnt => exact execRdcnt_effect s

end Sys2Proof.Machine
end

