-- ==== Sys2Proof/Laws/PerInstr.lean ====
section
/-! SUPPORT. The per-instruction family EncodedLength: a well-formed command's message starts with a mapped opcode and has the
length that opcode and its length operands demand (30_encoding.md R49, R51). -/

namespace Sys2Proof.Laws.EncodedLength

/-- The family's statement about one command. -/
def Statement (i : Instr) : Prop :=
  i.wf = true → ∃ b operands op,
    encode i = b :: operands ∧ opcodeOf b = some op ∧ demandedLength op operands = some (encode i).length

theorem bitrev (b : Byte) : Statement (.bitrev b) := fun _ => ⟨_, _, .bitrev, rfl, by decide, rfl⟩

theorem whiten (b i : Byte) : Statement (.whiten b i) := fun _ => ⟨_, _, .whiten, rfl, by decide, rfl⟩

theorem crc (alen plen off len : Byte) (buf : List Byte) : Statement (.crc alen plen off len buf) := fun h => by
  have hl : buf.length = off.toNat + len.toNat := by simpa [Instr.wf] using h
  exact ⟨_, _, .crc, rfl, by decide, by simp only [demandedLength, encode, List.length_cons, hl]; congr 1; omega⟩

theorem init : Statement .init := fun _ => ⟨_, _, .init, rfl, by decide, rfl⟩

theorem cfgaddr (a : Bytes5) (alen : Byte) : Statement (.cfgaddr a alen) := fun _ => ⟨_, _, .cfgaddr, rfl, by decide, rfl⟩

theorem setcrc (e : Byte) : Statement (.setcrc e) := fun _ => ⟨_, _, .setcrc, rfl, by decide, rfl⟩

theorem send (payload : List Byte) : Statement (.send payload) := fun h => by
  have hl : payload.length < 256 := by simpa [Instr.wf] using h
  refine ⟨_, _, .send, rfl, by decide, ?_⟩
  simp only [demandedLength, encode, List.length_cons, BitVec.toNat_ofNat, Nat.mod_eq_of_lt hl]
  congr 1
  omega

theorem rdcnt : Statement .rdcnt := fun _ => ⟨_, _, .rdcnt, rfl, by decide, rfl⟩

end Sys2Proof.Laws.EncodedLength
end

