-- ==== Sys2Proof/Laws/Step.lean ====
section
/-! SUPPORT. Everything a step can do, said once: it idles, resets, answers `ILLEGAL`, or runs the decoded command. -/

namespace Sys2Proof.Machine

/-- With no move to come a step changes nothing. -/
theorem step_idle {s : State} (h : s.inbox = []) : step s = .next s := by simp [step, h]

/-- The reset event (R130). -/
theorem step_reset {s : State} {rest : List HostMove} (h : s.inbox = .reset :: rest) :
    step s = .next (resetBlock (withInbox rest s)) := by simp [step, h]

/-- A message that is no command (R52, R54). -/
theorem step_illegal {s : State} {rest : List HostMove} {msg : List Byte} {e : DecodeError}
    (h : s.inbox = .command msg :: rest) (hd : decode msg = .error e) :
    step s = .next (respond .illegal [] (withInbox rest s)) := by simp [step, h, hd]

/-- A message that is a command: the step is the command's meaning on the state without that message (R45, R57). -/
theorem step_command {s : State} {rest : List HostMove} {msg : List Byte} {i : Instr}
    (h : s.inbox = .command msg :: rest) (hd : decode msg = .ok i) : step s = exec i (withInbox rest s) := by
  simp [step, h, hd]

/-- Everything a step can do. -/
theorem step_cases (s : State) :
    (s.inbox = [] ∧ step s = .next s) ∨
    (∃ rest, s.inbox = .reset :: rest ∧ step s = .next (resetBlock (withInbox rest s))) ∨
    (∃ msg rest e, s.inbox = .command msg :: rest ∧ decode msg = .error e ∧
      step s = .next (respond .illegal [] (withInbox rest s))) ∨
    (∃ msg rest i, s.inbox = .command msg :: rest ∧ decode msg = .ok i ∧ step s = exec i (withInbox rest s)) := by
  cases h : s.inbox with
  | nil => exact .inl ⟨rfl, step_idle h⟩
  | cons move rest =>
    cases move with
    | reset => exact .inr (.inl ⟨rest, rfl, step_reset h⟩)
    | command msg =>
      cases hd : decode msg with
      | error e => exact .inr (.inr (.inl ⟨msg, rest, e, rfl, hd, step_illegal h hd⟩))
      | ok i => exact .inr (.inr (.inr ⟨msg, rest, i, rfl, hd, step_command h hd⟩))

end Sys2Proof.Machine
end

