-- ==== Sys2Proof/Tests/Slice0.lean ====
section
/-! SUPPORT. The model's own tests. Expected values come from spec/ (the vector ids of 95_test_vectors.md); the [G1/G2] ones run
the meanings under `Config.generalKnowledge`, the instantiation those vectors rest on. Then one witness for the hypotheses of
each statement that has any. -/

namespace Sys2Proof.Tests

open Sys2Proof.Machine

/-! ### Helpers -/

/-- The next state of an outcome, if it is one. -/
def nextOf (o : Host.Outcome State Fault Refusal) : Option State :=
  match o with
  | .next t => some t
  | .fault _ | .refused _ => none

/-- The responses of the next state. -/
def answers (o : Host.Outcome State Fault Refusal) : Option (List (List Byte)) := (nextOf o).map (·.responses)

/-- The radio calls of the next state. -/
def calls (o : Host.Outcome State Fault Refusal) : Option (List RadioEvent) := (nextOf o).map (·.radioLog)

/-- INITED after reset. -/
def initedState : State := { State.reset with phase := .inited }

/-- READY with the address of the source's example (S10), the radio's next replies placed. -/
def readyState (a : AddrLen) (script : List RadioReply) : State :=
  { State.reset with
    phase := .ready, addr := some ⟨0x20, 0x21, 0x01, 0x31, 0xAA⟩, alen := some a, txa := some (config.preambleAddr a)
    radioLog := configuredCalls a, radioScript := script }

/-- The payload of the source's example (S10). -/
def payloadS10 : List Byte := [0x00, 0x76, 0x9A, 0x31, 0x04, 0x20]

/-! ### Syntax, well-formedness, decoding -/

/-- CRC announcing one data byte and carrying none is ill formed (R49). -/
theorem test_wf_refuses_crc_data_missing : (Instr.crc 5 6 0 1 []).wf = false := by decide

/-- CRC carrying one data byte more than `off + len` is ill formed (R49). -/
theorem test_wf_refuses_crc_data_extra : (Instr.crc 5 6 1 1 [1, 2, 3]).wf = false := by decide

/-- A payload of 256 bytes has no length byte (R49, R50). -/
theorem test_wf_refuses_send_of_256_bytes : (Instr.send (List.replicate 256 0)).wf = false := by decide +kernel

/-- 255 bytes are the longest payload (R50). -/
theorem test_wf_accepts_send_of_255_bytes : (Instr.send (List.replicate 255 0)).wf = true := by decide +kernel

/-- R49's bit view, BITREV. -/
theorem test_decode_bitrev : decode [0b00000001, 0b01110110] = .ok (.bitrev 0x76) := by rfl

/-- R49's bit view, WHITEN: `b` comes before `i`. -/
theorem test_decode_whiten : decode [0b00000010, 0b01101110, 0b00000110] = .ok (.whiten 0x6E 6) := by rfl

/-- R49's bit view, CRC: `alen`, `plen`, `off`, `len`, then `off + len` data bytes. -/
theorem test_decode_crc :
    decode [0b00000011, 0b00000011, 0b00000110, 0b00000001, 0b00000010, 0x55, 0xE2, 0x90] =
      .ok (.crc 3 6 1 2 [0x55, 0xE2, 0x90]) := by rfl

/-- R49's bit view, INIT. -/
theorem test_decode_init : decode [0b00010000] = .ok .init := by rfl

/-- R49's bit view, CFGADDR: the address bytes in order, the length last. -/
theorem test_decode_cfgaddr :
    decode [0b00010001, 0x20, 0x21, 0x01, 0x31, 0xAA, 0b00000101] = .ok (.cfgaddr ⟨0x20, 0x21, 0x01, 0x31, 0xAA⟩ 5) := by
  rfl

/-- R49's bit view, SETCRC. -/
theorem test_decode_setcrc : decode [0b00010010, 0b00000001] = .ok Instr.crcon := by rfl

/-- R49's bit view, SEND. -/
theorem test_decode_send : decode [0b00100000, 0b00000010, 0x00, 0x76] = .ok (.send [0x00, 0x76]) := by rfl

/-- R49's bit view, RDCNT. -/
theorem test_decode_rdcnt : decode [0b00110000] = .ok .rdcnt := by rfl

/-- V-DEC-1, V-DEC-2, V-DEC-4, V-DEC-5 and V-DEC-7, V-BR-9, V-CRC-26, V-SEND-19: refused by name. -/
theorem test_decode_refuses_by_name :
    decode [] = .error .emptyMessage ∧ decode [0x00] = .error (.reservedOpcode 0x00) ∧
      decode [0x13] = .error (.reservedOpcode 0x13) ∧ decode [0x21, 0x00] = .error (.reservedOpcode 0x21) ∧
      decode [0x30, 0x00] = .error (.wrongLength .rdcnt) ∧ decode [0x01] = .error (.wrongLength .bitrev) ∧
      decode [0x03, 0x05, 0x06, 0x00, 0x0C] = .error (.wrongLength .crc) ∧
      decode [0x20, 0x03, 0x01, 0x02] = .error (.wrongLength .send) := by
  refine ⟨?_, ?_, ?_, ?_, ?_, ?_, ?_, ?_⟩ <;> rfl

/-- A table word of CRC stops at its five header bytes; the data bytes are 0, as many as `off + len` says. -/
theorem test_table_word_crc : decodeTableWord 40 0x0201000303 = some (.crc 3 0 1 2 [0, 0, 0]) := by decide

/-- A table word of BITREV: the second byte of the message is bits 15..8. -/
theorem test_table_word_bitrev : decodeTableWord 16 0x7601 = some (.bitrev 0x76) := by decide

/-- The word the host places is what the next step from reset runs (V-BR-5). -/
theorem test_step_runs_the_word_placed : answers (step (State.reset.withFetchWord 16 0x7601)) = some [[0x00, 0x6E]] := by
  decide

/-- R55's example of CFGADDR. -/
theorem test_asm_cfgaddr : (Instr.cfgaddr ⟨0x20, 0x21, 0x01, 0x31, 0xAA⟩ 5).asm = "CFGADDR 20 21 01 31 AA, 5" := by
  decide +kernel

/-- R56: a burst is six SENDs that carry one index. -/
theorem test_send_command_burst :
    sendCommandExpansion 0x00 0x76 0x9A 0x31 0x04 0x20 true = List.replicate 6 (.send payloadS10) := by decide

/-! ### The step -/

/-- V-DEC-3, P3 step 13: a reserved opcode is answered `05` and leaves nothing else behind. -/
theorem test_step_reserved_opcode :
    nextOf (step { initedState with inbox := [.command [0x07]] }) = some { initedState with responses := [[0x05]] } := by
  decide

/-- R130: the reset event takes READY to the reset state and keeps what the host will do next. -/
theorem test_step_reset_event :
    nextOf (step { readyState .three [] with inbox := [.reset, .command [0x10]] }) =
      some { State.reset with inbox := [.command [0x10]] } := by decide

/-! ### The commands, at most two tests each -/

/-- V-BR-5. -/
theorem test_bitrev_76 : answers (exec (.bitrev 0x76) State.reset) = some [[0x00, 0x6E]] := by decide

/-- V-BR-4, in FAILED (R61). -/
theorem test_bitrev_80_in_failed :
    answers (exec (.bitrev 0x80) { State.reset with phase := .failed }) = some [[0x00, 0x01]] := by decide

/-- V-WH-9: the last legal index. -/
theorem test_whiten_last_index : answers (whitenUnder Config.generalKnowledge 0x00 0x22 State.reset) = some [[0x00, 0x2F]] := by
  decide

/-- V-WH-10: the first illegal index. -/
theorem test_whiten_past_table : answers (whitenUnder Config.generalKnowledge 0x00 0x23 State.reset) = some [[0x04]] := by
  decide

/-- V-CRC-9, V-CRC-10, V-CRC-11: the published check values and the block's own seed. -/
theorem test_crc_check_values :
    crcFrom 0x0000 [0x31, 0x32, 0x33, 0x34, 0x35, 0x36, 0x37, 0x38, 0x39] = 0x31C3 ∧
      crcFrom 0xFFFF [0x31, 0x32, 0x33, 0x34, 0x35, 0x36, 0x37, 0x38, 0x39] = 0x29B1 ∧
      crcSeq [0x31, 0x32, 0x33, 0x34, 0x35, 0x36, 0x37, 0x38, 0x39] = 0xB4FC := by decide +kernel

/-- V-CRC-19 (a 3-byte address, the filler skipped), V-CRC-22 and V-CRC-23 (the last index of the XOR-out table and the first
past it). -/
theorem test_crc_command :
    answers (crcUnder Config.generalKnowledge 3 6 1 9 [0x55, 0xE2, 0x90, 0x6B, 0xEA, 0xEB, 0xE5, 0x69, 0x46, 0x09]
        State.reset) = some [[0x00, 0xA8, 0x0E]] ∧
      answers (crcUnder Config.generalKnowledge 5 0x19 0 0 [] State.reset) = some [[0x00, 0x9C, 0x5A]] ∧
      answers (crcUnder Config.generalKnowledge 5 0x1A 0 0 [] State.reset) = some [[0x02]] := by decide +kernel

/-- V-INIT-1: the eight calls in order, INITED. -/
theorem test_init_true :
    calls (initUnder Config.generalKnowledge { State.reset with radioScript := [.answer true] }) =
        some [.begin true, .setChannel 0, .setDataRate 0, .setAutoAck false, .disableCRC, .setRetries 0 0, .setPALevel 0,
          .setPayloadSize 0] ∧
      (nextOf (exec .init { State.reset with radioScript := [.answer true] })).map (·.phase) = some .inited := by decide

/-- V-INIT-2, and P4's end state: `begin` only, FAILED, `06`, and "`ADDR`, `ALEN`, `TXA`, `FB` unwritten". -/
theorem test_init_false :
    nextOf (exec .init { State.reset with radioScript := [.answer false] }) =
      some { State.reset with
        phase := .failed, responses := [[0x06]], radioLog := [.begin false], draws := 1 } := by decide

/-- V-CFG-2: all five bytes stored, length 3, the two radio calls. -/
theorem test_cfgaddr_three :
    nextOf (cfgaddrUnder Config.generalKnowledge ⟨0x20, 0x21, 0x01, 0x31, 0xAA⟩ 3 initedState) =
      some { initedState with
        phase := .ready, addr := some ⟨0x20, 0x21, 0x01, 0x31, 0xAA⟩, alen := some .three
        txa := some ⟨0x0F, 0x71, 0x0C, 0x00, 0x00⟩
        radioLog := [.setAddressWidth 3, .writeTxAddress ⟨0x0F, 0x71, 0x0C, 0x00, 0x00⟩]
        responses := [[0x00]], draws := 2 } := by decide

/-- V-CFG-3, V-CFG-4 and V-CFG-7: the phase is checked before the length. -/
theorem test_cfgaddr_refused :
    answers (exec (.cfgaddr ⟨0, 0, 0, 0, 0⟩ 6) initedState) = some [[0x02]] ∧
      answers (exec (.cfgaddr ⟨0, 0, 0, 0, 0⟩ 2) initedState) = some [[0x02]] ∧
      answers (exec (.cfgaddr ⟨0, 0, 0, 0, 0⟩ 7) State.reset) = some [[0x03]] := by decide

/-- V-CRCEN-1. -/
theorem test_setcrc_off :
    nextOf (exec Instr.crcoff State.reset) = some { State.reset with crcen := false, responses := [[0x00]] } := by decide

/-- V-CRCEN-3. -/
theorem test_setcrc_reserved : nextOf (exec (.setcrc 2) State.reset) = some { State.reset with responses := [[0x05]] } := by
  decide

/-- V-SEND-2 with the radio answering false (as V-SEND-11): the filler, the frame, `01`, and the counter. -/
theorem test_send_three_bytes_address :
    (nextOf (sendUnder Config.generalKnowledge payloadS10 (readyState .three [.answer false]))).map
        (fun t => (t.radioLog.getLast?, t.responses, t.pktcnt, t.flen, t.phase)) =
      some (some (.write [0x55, 0xE2, 0x90, 0x6B, 0xEA, 0xEB, 0xE5, 0x69, 0x46, 0x09, 0xA8, 0x0E] false), [[0x01]], 1, 12,
        .ready) := by decide +kernel

/-- V-SEND-15 (the longest frame at `ALEN` = 4) and V-SEND-13 (one byte too many at `ALEN` = 5). -/
theorem test_send_limits :
    ((nextOf (sendUnder Config.generalKnowledge ((List.range 26).map (BitVec.ofNat 8)) (readyState .four [.answer true]))).map
        fun t => (t.radioLog.getLast?, t.flen)) =
      some (some (.write [0xD2, 0xB0, 0x6A, 0xCA, 0x85, 0x3C, 0xA5, 0xA6, 0x2D, 0x0E, 0xEC, 0x68, 0x02, 0xF9, 0xBE, 0xCF,
        0xF7, 0xD2, 0xE7, 0x25, 0x03, 0xF1, 0x82, 0x04, 0x33, 0xF5, 0x71, 0xF8, 0x3C, 0x4B, 0xC0, 0xB9] true), 32) ∧
      answers (sendUnder Config.generalKnowledge ((List.range 26).map (BitVec.ofNat 8)) (readyState .five [.answer true])) =
        some [[0x02]] := by decide +kernel

/-- R104: most significant byte first. -/
theorem test_rdcnt_byte_order :
    answers (exec .rdcnt { State.reset with pktcnt := 0x01020304 }) = some [[0x00, 0x01, 0x02, 0x03, 0x04]] := by decide

/-- V-CNT-3: the counter wraps. -/
theorem test_rdcnt_after_wrap :
    ((nextOf (sendUnder Config.generalKnowledge [] { readyState .three [] with pktcnt := 0xFFFFFFFF })).map
      fun t => answers (exec .rdcnt { t with responses := [] })) = some (some [[0x00, 0x00, 0x00, 0x00, 0x00]]) := by
  decide +kernel

/-- P2 steps 4 to 6: a shorter frame leaves the cells past its end as they were. -/
theorem test_fb_keeps_cells_past_the_frame :
    (match fbStore [] 0 [1, 2, 3] with
      | .ok m => (match fbStore m 0 [4] with | .ok n => some n | .error _ => none)
      | .error _ => none) = some [(0, 4), (1, 2), (2, 3)] := by decide

/-! ### Witnesses: a state and operands that meet the hypotheses of each statement -/

/-- READY, so that the reset has something to clear. -/
theorem witness_ResetEventClearsTheBlock : ({ readyState .five [] with inbox := [.reset] } : State).inbox = .reset :: [] := rfl

theorem witness_StepRunsTheDecodedCommand :
    ({ State.reset with inbox := [.command [0x30]] } : State).inbox = .command [0x30] :: [] ∧
      decode [0x30] = .ok .rdcnt := ⟨rfl, rfl⟩

theorem witness_TheNextStepRunsTheWordPlaced : decodeTableWord 8 0x20 = some (.send []) := by decide

theorem witness_StepAnswersIllegalToAMessageThatIsNoCommand :
    ({ State.reset with inbox := [.command []] } : State).inbox = .command [] :: [] ∧ ∀ i, decode [] ≠ .ok i :=
  ⟨rfl, fun i h => by simp [decode] at h⟩

theorem witness_DecodeOfEncodeIsTheCommand :
    (Instr.crc 5 6 255 255 (List.replicate 510 0)).wf = true ∧ (Instr.send (List.replicate 255 0)).wf = true := by
  decide +kernel

theorem witness_EncodeOfDecodeIsTheMessage : decode [0x20, 0x01, 0xFF] = .ok (.send [0xFF]) := rfl

/-- The first entry, the last the spec vouches for, and the first index past the table. -/
theorem witness_WhitenAnswersTheByteXoredWithItsEntry :
    (0 : Byte).toNat < config.scramble.length ∧ (31 : Byte).toNat < config.scramble.length ∧
      config.scramble.length ≤ config.scramble.length :=
  ⟨Nat.lt_of_lt_of_le (by decide) (scramble_length config), Nat.lt_of_lt_of_le (by decide) (scramble_length config), le_rfl⟩

theorem witness_WhitenRefusesAnIndexPastTheTable : Config.generalKnowledge.scramble.length ≤ (35 : Byte).toNat := by decide

theorem witness_WhiteningLaws :
    34 < Config.generalKnowledge.scramble.length ∧ whitenByte Config.generalKnowledge 0x00 34 = some 0x2F ∧
      whitenByte Config.generalKnowledge 0xFF 34 = some 0xD0 := by decide

/-- The one pair that is supported whatever the table is (R7: it has an entry). -/
theorem witness_CrcAnswersTheXoredRunForASupportedPair :
    3 ≤ (3 : Byte).toNat ∧ (3 : Byte).toNat ≤ 5 ∧ (3 : Byte).toNat - 3 + (0 : Byte).toNat < config.xorout.length :=
  ⟨by decide, by decide, xorout_length config⟩

/-- Under the general-knowledge table, which nothing rules out of `config`: the source's own pair (5, 6), and the last supported
pair of the lengths 4 and 5. -/
theorem witness_CrcAnswersTheXoredRunForASupportedPair_general_knowledge (h : config = Config.generalKnowledge) :
    3 ≤ (5 : Byte).toNat ∧ (5 : Byte).toNat ≤ 5 ∧ (5 : Byte).toNat - 3 + (6 : Byte).toNat < config.xorout.length ∧
      (5 : Byte).toNat - 3 + (25 : Byte).toNat < config.xorout.length ∧
      (4 : Byte).toNat - 3 + (26 : Byte).toNat < config.xorout.length := by rw [h]; decide

/-- Below and above the range of lengths, and one past the table's end, for CRC and for SEND. -/
theorem witness_UnsupportedPairsAreRefusedWithCfgerr :
    ¬(3 ≤ (2 : Byte).toNat) ∧ ¬((6 : Byte).toNat ≤ 5) ∧
      ¬((5 : Byte).toNat - 3 + (26 : Byte).toNat < Config.generalKnowledge.xorout.length) ∧
      (readyState .five []).phase = .ready ∧ (readyState .five []).alen = some .five ∧
      Config.generalKnowledge.xorout.length ≤ AddrLen.five.toNat - 3 + (List.replicate 26 (0 : Byte)).length := by
  decide

theorem witness_CrcRunIsLinear : ([0x01, 0x02] : List Byte).length = ([0xFF, 0x00] : List Byte).length := rfl

theorem witness_EverySingleBitFlipChangesTheCrc : 1 < ([0x00, 0x20] : List Byte).length ∧ 7 < 8 ∧ 0 < 8 := by decide

/-- With no reply placed, with all eight placed and a hang only after them, and with `begin` false and a hang right after it. -/
theorem witness_InitBringsUpTheRadioOrMarksItFailed :
    State.reset.phase = .uninit ∧ RadioReply.never ∉ State.reset.radioScript.take 8 ∧
      RadioReply.never ∉ (List.replicate 8 (RadioReply.answer true) ++ [RadioReply.never]).take 8 ∧
      [RadioReply.answer false, .never].head? = some (.answer false) := by decide

theorem witness_ASecondInitIsRefused :
    ({ State.reset with phase := .failed } : State).phase = .failed ∧ initedState.phase = .inited ∧
      (readyState .five []).phase = .ready := by decide

theorem witness_CfgaddrStoresTheAddress :
    initedState.phase = .inited ∧ (3 : Byte).toNat = AddrLen.three.toNat ∧ (4 : Byte).toNat = AddrLen.four.toNat ∧
      (5 : Byte).toNat = AddrLen.five.toNat ∧ RadioReply.never ∉ initedState.radioScript.take 2 ∧
      RadioReply.never ∉ [RadioReply.answer true, .answer false, .never].take 2 := by decide

theorem witness_CfgaddrIsRefusedOutOfPhaseOrRange :
    ({ State.reset with phase := .failed } : State).phase = .failed ∧ State.reset.phase = .uninit ∧
      (readyState .five []).phase = .ready ∧ initedState.phase = .inited ∧ (2 : Byte).toNat < 3 ∧ 5 < (6 : Byte).toNat ∧
      5 < (255 : Byte).toNat := by decide

theorem witness_SetcrcWritesTheCrcSwitch : 1 < (2 : Byte).toNat ∧ 1 < (255 : Byte).toNat := by decide

/-- A SEND whose sizes pass whatever the tables are: the empty payload at length 3, with the CRC on and off. -/
theorem witness_SendHandsTheWholeFrameToTheRadio :
    (readyState .three []).phase = .ready ∧ (readyState .three []).alen = some .three ∧
      (readyState .three []).addr = some ⟨0x20, 0x21, 0x01, 0x31, 0xAA⟩ ∧
      AddrLen.three.toNat + ([] : List Byte).length ≤ config.scramble.length ∧
      AddrLen.three.toNat - 3 + ([] : List Byte).length < config.xorout.length ∧
      1 + AddrLen.three.toNat + ([] : List Byte).length + 2 ≤ 32 ∧
      1 + AddrLen.three.toNat + ([] : List Byte).length + 0 ≤ 32 ∧
      (readyState .three []).radioScript.head? ≠ some .never :=
  ⟨rfl, rfl, rfl, le_trans (by decide) (scramble_length config), xorout_length config, by decide, by decide, by decide⟩

/-- Under the general-knowledge tables, which nothing rules out of `config`: no filler (`f = 0`), the longest payloads of the
lengths 4 and 5 with the CRC on, and of length 5 with it off. -/
theorem witness_SendHandsTheWholeFrameToTheRadio_general_knowledge (h : config = Config.generalKnowledge) :
    (readyState .four []).alen = some .four ∧ (readyState .five []).alen = some .five ∧
      (readyState .five []).crcen = true ∧
      AddrLen.four.toNat + 26 ≤ config.scramble.length ∧ AddrLen.four.toNat - 3 + 26 < config.xorout.length ∧
      0 + AddrLen.four.toNat + 26 + 2 ≤ 32 ∧
      AddrLen.five.toNat + 25 ≤ config.scramble.length ∧ AddrLen.five.toNat - 3 + 25 < config.xorout.length ∧
      0 + AddrLen.five.toNat + 25 + 2 ≤ 32 ∧ 0 + AddrLen.five.toNat + 25 + 0 ≤ 32 := by rw [h]; decide

theorem witness_SendBeforeConfigurationIsRefused :
    ({ State.reset with phase := .failed } : State).phase = .failed ∧ State.reset.phase = .uninit ∧
      initedState.phase = .inited := by decide

/-- One past the end for each of the three checks of R88. -/
theorem witness_SendOfUnsupportedSizesIsRefused :
    (readyState .five []).phase = .ready ∧ (readyState .five []).alen = some .five ∧
      Config.generalKnowledge.scramble.length < AddrLen.five.toNat + 31 ∧
      Config.generalKnowledge.xorout.length ≤ AddrLen.five.toNat - 3 + 26 ∧
      (readyState .five []).crcen = true ∧ 32 < 0 + AddrLen.five.toNat + 26 + 2 := by decide

/-- Any SEND in READY with sizes that pass goes through to the radio, with the frame it hands over as the last call. -/
theorem send_reaches_the_radio (p : Config.Params) (payload : List Byte) (s : State) (addr : Bytes5) (a : AddrLen)
    (hp : s.phase = .ready) (ha : s.addr = some addr) (hl : s.alen = some a) (hs : sizesOk p a s.crcen payload.length)
    (hn : s.radioScript.head? ≠ some .never) :
    ∃ t frame ok, sendUnder p payload s = .next t ∧ t.radioLog = s.radioLog ++ [.write frame ok] := by
  obtain ⟨m, -, -, -, ⟨ok, he, -⟩ | ⟨-, h⟩⟩ := sendFrame_cases ha hs
  · exact ⟨sentState m (frameOf p addr a s.crcen payload) ok s, _, ok, by simp only [sendUnder, hp, hl, written, if_pos hs, he], rfl⟩
  · exact absurd h hn

/-- Two states that differ in `PKTCNT`, in `TXA`, in the radio's answer and in the address bytes that are not sent. -/
theorem witness_TheFrameDependsOnlyOnAddressLengthSwitchAndPayload :
    let s := readyState .three [.answer true]
    let s' : State := { readyState .three [.answer false] with
      addr := some ⟨0x20, 0x21, 0x01, 0x00, 0xFF⟩, pktcnt := 7, txa := none }
    s.crcen = s'.crcen ∧ s.alen = s'.alen ∧
      ([0x20, 0x21, 0x01, 0x31, 0xAA] : List Byte).take 3 = ([0x20, 0x21, 0x01, 0x00, 0xFF] : List Byte).take 3 ∧
      (∃ t frame ok, sendUnder Config.generalKnowledge payloadS10 s = .next t ∧
        t.radioLog = s.radioLog ++ [.write frame ok]) ∧
      ∃ t frame ok, sendUnder Config.generalKnowledge payloadS10 s' = .next t ∧
        t.radioLog = s'.radioLog ++ [.write frame ok] :=
  ⟨rfl, rfl, rfl, send_reaches_the_radio _ _ _ _ .three rfl rfl rfl (by decide) (by decide),
    send_reaches_the_radio _ _ _ _ .three rfl rfl rfl (by decide) (by decide)⟩

/-- One state twice, with one payload: the two SENDs hand over one frame, as the hypotheses ask. -/
theorem witness_TheFrameDeterminesAddressAndPayload :
    let s := readyState .four [.answer true]
    s.addr = some ⟨0x20, 0x21, 0x01, 0x31, 0xAA⟩ ∧ s.alen = some .four ∧
      ∃ t frame ok, sendUnder Config.generalKnowledge payloadS10 s = .next t ∧ t.radioLog = s.radioLog ++ [.write frame ok] :=
  ⟨rfl, rfl, send_reaches_the_radio _ _ _ _ .four rfl rfl rfl (by decide) (by decide)⟩

/-- `sizesOk` holds of the empty payload at length 3 whatever the tables are. -/
theorem sizesOk_three_empty (crcen : Bool) : sizesOk config .three crcen ([] : List Byte).length :=
  ⟨le_trans (by decide) (scramble_length config), xorout_length config, by cases crcen <;> decide⟩

/-- INIT stuck in `begin` and in its last call, CFGADDR in its second, SEND in `write`. -/
theorem witness_ARadioCallThatNeverReturnsStopsTheCommand :
    (State.reset.phase = .uninit ∧ RadioReply.never ∈ [RadioReply.never].take 8 ∧
      [RadioReply.never].head? ≠ some (.answer false) ∧
      RadioReply.never ∈ (List.replicate 7 (RadioReply.answer true) ++ [RadioReply.never]).take 8 ∧
      (List.replicate 7 (RadioReply.answer true) ++ [RadioReply.never]).head? ≠ some (.answer false)) ∧
      (initedState.phase = .inited ∧ 3 ≤ (3 : Byte).toNat ∧ (5 : Byte).toNat ≤ 5 ∧
        RadioReply.never ∈ [RadioReply.answer true, .never].take 2) ∧ [RadioReply.never].head? = some .never ∧
      (readyState .three [.never]).phase = .ready ∧ (readyState .three [.never]).alen = some .three ∧
      (readyState .three [.never]).addr = some ⟨0x20, 0x21, 0x01, 0x31, 0xAA⟩ ∧
      sizesOk config .three (readyState .three [.never]).crcen ([] : List Byte).length :=
  ⟨by decide, by decide, rfl, rfl, rfl, rfl, sizesOk_three_empty true⟩

/-- R125: stuck in INIT's eighth call and in CFGADDR's second; one call later the same commands answer. -/
theorem test_stuck_in_a_configuration_call :
    exec .init { State.reset with radioScript := List.replicate 7 (.answer true) ++ [.never] } =
        .fault .radioNeverReturns ∧
      answers (exec .init { State.reset with radioScript := List.replicate 8 (.answer true) ++ [.never] }) =
        some [[0x00]] ∧
      exec (.cfgaddr ⟨1, 2, 3, 4, 5⟩ 5) { initedState with radioScript := [.answer true, .never] } =
        .fault .radioNeverReturns ∧
      answers (exec (.cfgaddr ⟨1, 2, 3, 4, 5⟩ 5)
        { initedState with radioScript := [.answer true, .answer false, .never] }) = some [[0x00]] :=
  ⟨rfl, rfl, rfl, rfl⟩

theorem witness_SendFaultsOnAnUnwrittenRegister :
    ({ State.reset with phase := .ready } : State).alen = none ∧
      ({ State.reset with phase := .ready, alen := some .three } : State).addr = none ∧
      sizesOk config .three State.reset.crcen ([] : List Byte).length := ⟨rfl, rfl, sizesOk_three_empty true⟩

theorem witness_EveryMessageGetsExactlyOneResponse :
    ∃ t, step { State.reset with inbox := [.command [0x30], .reset] } = .next t := ⟨_, rfl⟩

theorem witness_ARefusedCommandLeavesNoTrace :
    ∃ t, exec .init (readyState .five []) = .next t ∧ t.responses = (readyState .five []).responses ++ [0x03 :: []] ∧
      (0x03 : Byte) ≠ 0x00 ∧ (0x03 : Byte) ≠ 0x01 ∧ ¬((0x03 : Byte) = 0x06 ∧ (readyState .five []).phase = .uninit) :=
  ⟨_, rfl, rfl, by decide, by decide, by decide⟩

theorem witness_RadioFreeCommandsRunInEveryPhase :
    Instr.setcrc 2 ≠ .init ∧ (∀ a alen, Instr.setcrc 2 ≠ .cfgaddr a alen) ∧ ∀ payload, Instr.setcrc 2 ≠ .send payload := by
  simp

/-- For the statements about any command that answers a next state: one that writes, one that refuses. -/
theorem witness_OnlyTheAccessTablesWritersWrite :
    (∃ t, exec (.setcrc 0) State.reset = .next t ∧ t.crcen ≠ State.reset.crcen) ∧
      ∃ t, exec (.cfgaddr ⟨1, 2, 3, 4, 5⟩ 5) initedState = .next t ∧ t.addr ≠ initedState.addr :=
  ⟨⟨_, rfl, by decide⟩, ⟨_, rfl, by decide⟩⟩

theorem witness_BothPortsHistoriesOnlyGrow : ∃ t, exec (.cfgaddr ⟨1, 2, 3, 4, 5⟩ 3) initedState = .next t := ⟨_, rfl⟩

theorem witness_PhaseMovesOnlyForward :
    ∃ t, exec .init { State.reset with radioScript := [.answer true] } = .next t ∧ t.phase ≠ State.reset.phase :=
  ⟨_, rfl, by decide⟩

theorem witness_TheAddressIsWriteOnce :
    let s : State := { readyState .five [] with inbox := [.command [0x11, 0, 0, 0, 0, 0, 5]] }
    s.phase = .ready ∧ s.inbox.head? ≠ some .reset ∧ ∃ t, step s = .next t := ⟨rfl, by decide, _, rfl⟩

theorem witness_FailedIsLeftOnlyByReset :
    let s : State := { State.reset with phase := .failed, inbox := [.command [0x10]] }
    s.phase = .failed ∧ s.inbox.head? ≠ some .reset := by decide

theorem witness_ThePacketCounterCountsWriteCalls :
    ∃ t, exec (.send []) (readyState .three [.answer true]) = .next t := by
  obtain ⟨t, -, -, h, -⟩ := send_reaches_the_radio config [] (readyState .three [.answer true]) _ .three rfl rfl rfl
    (sizesOk_three_empty true) (by decide)
  exact ⟨t, h⟩

/-- A READY state that meets both invariants. -/
theorem readyState_safe (a : AddrLen) (script : List RadioReply) :
    (readyState a script).Inv ∧ (readyState a script).RadioPromise :=
  ⟨⟨fun _ => ⟨rfl, rfl, rfl⟩, fun h => absurd rfl h, by simp [readyState, State.reset], by simp [readyState, State.reset],
      wf_reset⟩,
    ⟨a, [], rfl, rfl, by simp [readyState], by simp, rfl, fun _ => rfl, by simp⟩⟩

/-- A step of a SEND from a READY state that meets both invariants. -/
theorem witness_EveryStepKeepsTheInvariants :
    let s : State := { readyState .three [.answer true] with inbox := [.command [0x20, 0x00]] }
    s.Inv ∧ s.RadioPromise ∧ ∃ t, step s = .next t := by
  obtain ⟨⟨h1, h2, h3, h4, h5⟩, hp⟩ := readyState_safe .three [.answer true]
  refine ⟨⟨h1, h2, h3, h4, h5⟩, hp, ?_⟩
  obtain ⟨t, -, -, h, -⟩ := send_reaches_the_radio config [] (readyState .three [.answer true]) _ .three rfl rfl rfl
    (sizesOk_three_empty true) (by decide)
  exact ⟨t, (step_command (msg := [0x20, 0x00]) rfl rfl).trans h⟩

theorem witness_EveryStepKeepsTheRadioPromise :
    (readyState .five []).Inv ∧ (readyState .five []).RadioPromise ∧ ∃ t, step (readyState .five []) = .next t :=
  ⟨(readyState_safe .five []).1, (readyState_safe .five []).2, _, rfl⟩

/-- Both outcomes of the statement occur: the run that goes on, and the radio that never returns. -/
theorem witness_SafeStatesStopOnlyWithTheRadio :
    (readyState .five []).Inv ∧ (∃ t, step (readyState .five []) = .next t) ∧
      step { State.reset with inbox := [.command [0x10]], radioScript := [.never] } = .fault .radioNeverReturns :=
  ⟨(readyState_safe .five []).1, ⟨_, rfl⟩, rfl⟩

theorem witness_EveryRunGoesOnWhileTheRadioReturns :
    RadioReply.never ∉ ([] : List RadioReply) ∧ RadioReply.never ∉ [RadioReply.answer true, .answer false] := by decide

end Sys2Proof.Tests
end

/-! PROOFS. BITREV and WHITEN (40_byte_transforms.md R60, R61, R63): what the two byte functions give, what the two commands
answer, and the statements O10 and O12. -/

namespace Sys2Proof.Machine

/-! ### The byte functions -/

/-- R60, bit by bit. The model writes bit 0 of the operand leftmost, so each of the eight positions names its own bit. -/
theorem getLsbD_bitReverse (b : Byte) {i : Nat} (hi : i < 8) : (bitReverse b).getLsbD i = b.getLsbD (7 - i) := by
  simp only [bitReverse, BitVec.getLsbD_append, BitVec.getLsbD_extractLsb']
  interval_cases i <;> rfl

/-- R63, inside the table. -/
theorem whitenByte_of_lt {p : Config.Params} {i : Nat} (b : Byte) (h : i < p.scramble.length) :
    whitenByte p b i = some (b ^^^ p.scramble[i]) := by
  simp only [whitenByte, romS, List.getElem?_eq_getElem h, Option.map_some]

/-- R63, where the function is not defined. -/
theorem whitenByte_of_length_le {p : Config.Params} {i : Nat} (b : Byte) (h : p.scramble.length ≤ i) :
    whitenByte p b i = none := by
  simp only [whitenByte, romS, List.getElem?_eq_none h, Option.map_none]

/-! ### The commands -/

theorem exec_bitrev (b : Byte) (s : State) : exec (.bitrev b) s = .next (respond .ok [bitReverse b] s) := rfl

theorem exec_whiten (b i : Byte) (s : State) : exec (.whiten b i) s = whitenUnder config b i s := rfl

/-- WHITEN inside the table, under any parameters. -/
theorem whitenUnder_of_lt {p : Config.Params} {i : Byte} (b : Byte) (s : State) (h : i.toNat < p.scramble.length) :
    whitenUnder p b i s = .next (respond .ok [b ^^^ p.scramble[i.toNat]] s) := by
  simp only [whitenUnder, unsigned, whitenByte_of_lt b h]

/-! ### The statements -/

/-- Settles O10: the answered byte is `bitReverse b`, whose bits `getLsbD_bitReverse` gives. -/
theorem bitrevAnswersTheReversedByte : Obligations.BitrevAnswersTheReversedByte :=
  fun b s => ⟨bitReverse b, fun _ hi => getLsbD_bitReverse b hi, exec_bitrev b s⟩

/-- Settles O12: inside the table by `whitenUnder_of_lt` at the block's own parameters, past it by
`whitenByte_of_length_le`. -/
theorem whitenAnswersTheByteXoredWithItsEntry : Obligations.WhitenAnswersTheByteXoredWithItsEntry :=
  ⟨fun b i s h => (exec_whiten b i s).trans (whitenUnder_of_lt b s h), fun b _ h => whitenByte_of_length_le b h⟩

end Sys2Proof.Machine

/-! PROOFS. The decoder and the encoder (30_encoding.md R48 to R57): the statements O6 to O9. -/

namespace Sys2Proof

/-- The family `Laws.EncodedLength` for every command. -/
theorem encodedLength (i : Instr) : Laws.EncodedLength.Statement i := by
  cases i with
  | bitrev b => exact Laws.EncodedLength.bitrev b
  | whiten b k => exact Laws.EncodedLength.whiten b k
  | crc alen plen off len buf => exact Laws.EncodedLength.crc alen plen off len buf
  | init => exact Laws.EncodedLength.init
  | cfgaddr a alen => exact Laws.EncodedLength.cfgaddr a alen
  | setcrc e => exact Laws.EncodedLength.setcrc e
  | send payload => exact Laws.EncodedLength.send payload
  | rdcnt => exact Laws.EncodedLength.rdcnt

/-- The opcode of a command (R48). -/
def Instr.opcode : Instr → Opcode
  | .bitrev _ => .bitrev
  | .whiten _ _ => .whiten
  | .crc _ _ _ _ _ => .crc
  | .init => .init
  | .cfgaddr _ _ => .cfgaddr
  | .setcrc _ => .setcrc
  | .send _ => .send
  | .rdcnt => .rdcnt

/-- A message begins with its command's opcode byte (R48, R49). -/
theorem opcodeOf_of_encode {i : Instr} {b : Byte} {operands : List Byte} (he : encode i = b :: operands) :
    opcodeOf b = some i.opcode := by
  cases i <;> cases he <;> rfl

/-- The bytes after the opcode read back as the command (R49). -/
theorem operandFields_of_encode {i : Instr} {b : Byte} {operands : List Byte} (he : encode i = b :: operands) :
    operandFields i.opcode operands = some i := by
  cases i <;> cases he <;> rfl

/-- One case for each opcode: a message of the demanded length holds the operands of a command, whose length operands count
the bytes that follow them, and is the message the encoder gives (R49, R51). -/
theorem operandFields_of_demandedLength {b : Byte} {operands : List Byte} {op : Opcode} (ho : opcodeOf b = some op)
    (hl : demandedLength op operands = some (b :: operands).length) :
    ∃ i, operandFields op operands = some i ∧ i.wf = true ∧ encode i = b :: operands := by
  have hb := opcodeOf_byte ho
  cases op with
  | bitrev | setcrc => match operands, hl with | [_], _ => exact ⟨_, rfl, rfl, hb ▸ rfl⟩
  | whiten => match operands, hl with | [_, _], _ => exact ⟨_, rfl, rfl, hb ▸ rfl⟩
  | init | rdcnt => match operands, hl with | [], _ => exact ⟨_, rfl, rfl, hb ▸ rfl⟩
  | cfgaddr => match operands, hl with | [_, _, _, _, _, _], _ => exact ⟨_, rfl, rfl, hb ▸ rfl⟩
  | crc =>
    match operands, hl with
    | alen :: plen :: off :: len :: buf, hl =>
      simp only [demandedLength, List.length_cons, Option.some.injEq] at hl
      exact ⟨_, rfl, by simp only [Instr.wf, beq_iff_eq]; omega, hb ▸ rfl⟩
  | send =>
    match operands, hl with
    | n :: payload, hl =>
      simp only [demandedLength, List.length_cons, Option.some.injEq] at hl
      have hn : payload.length = n.toNat := by omega
      exact ⟨_, rfl, by simpa [Instr.wf, hn] using n.isLt, by simp [encode, hn, hb]⟩

/-- A message is a command exactly when its opcode is mapped and its length the demanded one (R51, R57). -/
theorem decode_accepts_iff (msg : List Byte) : (∃ i, decode msg = .ok i) ↔
    ∃ b operands op, msg = b :: operands ∧ opcodeOf b = some op ∧ demandedLength op operands = some msg.length := by
  constructor
  · rintro ⟨i, h⟩
    obtain ⟨b, operands, op, hm, ho, hl, -⟩ := decode_ok h
    exact ⟨b, operands, op, hm, ho, hl⟩
  · rintro ⟨b, operands, op, rfl, ho, hl⟩
    obtain ⟨i, hf, -⟩ := operandFields_of_demandedLength ho hl
    exact ⟨i, decode_intro ho hl hf⟩

/-- The length CRC demands, read from its third and fourth operand (R49). -/
theorem demandedLength_crc {operands : List Byte} {n : Nat} : demandedLength .crc operands = some n ↔
    ∃ off len : Byte, operands[2]? = some off ∧ operands[3]? = some len ∧ n = 5 + off.toNat + len.toNat := by
  match operands with
  | [] | [_] | [_, _] | [_, _, _] => simp [demandedLength]
  | _ :: _ :: off :: len :: _ => simp [demandedLength, eq_comm]

/-- The length SEND demands, read from its first operand (R49). -/
theorem demandedLength_send {operands : List Byte} {n : Nat} : demandedLength .send operands = some n ↔
    ∃ k : Byte, operands[0]? = some k ∧ n = 2 + k.toNat := by
  cases operands <;> simp [demandedLength, eq_comm]

/-- Settles O6: `decode_accepts_iff`, opcode by opcode. -/
theorem commandsAreExactlyTheMessagesOfDemandedLength : Obligations.CommandsAreExactlyTheMessagesOfDemandedLength := by
  intro msg
  rw [decode_accepts_iff]
  constructor
  · rintro ⟨b, operands, op, rfl, ho, hl⟩
    obtain rfl := opcodeOf_byte ho
    cases op with
    | crc => exact .inr (.inr (.inl ⟨rfl, by simpa using demandedLength_crc.1 hl⟩))
    | send => simpa using demandedLength_send.1 hl
    | _ => simpa [demandedLength, eq_comm] using hl
  · cases msg with
    | nil => simp
    | cons b operands =>
      simp only [List.head?_cons, Option.some.injEq]
      rintro (⟨rfl, hl⟩ | ⟨rfl, hl⟩ | ⟨rfl, hl⟩ | ⟨rfl, hl⟩ | ⟨rfl, hl⟩ | ⟨rfl, hl⟩ | ⟨rfl, hl⟩ | ⟨rfl, hl⟩)
      · exact ⟨_, _, .bitrev, rfl, rfl, congrArg some hl.symm⟩
      · exact ⟨_, _, .whiten, rfl, rfl, congrArg some hl.symm⟩
      · exact ⟨_, _, .crc, rfl, rfl, demandedLength_crc.2 hl⟩
      · exact ⟨_, _, .init, rfl, rfl, congrArg some hl.symm⟩
      · exact ⟨_, _, .cfgaddr, rfl, rfl, congrArg some hl.symm⟩
      · exact ⟨_, _, .setcrc, rfl, rfl, congrArg some hl.symm⟩
      · exact ⟨_, _, .send, rfl, rfl, demandedLength_send.2 hl⟩
      · exact ⟨_, _, .rdcnt, rfl, rfl, congrArg some hl.symm⟩

/-- Settles O7: an encoder's message has the demanded length (`encodedLength`) and its operands read back as the command. -/
theorem decodeOfEncodeIsTheCommand : Obligations.DecodeOfEncodeIsTheCommand := by
  intro i hwf
  obtain ⟨b, operands, op, he, ho, hl⟩ := encodedLength i hwf
  obtain rfl : op = i.opcode := Option.some.inj (ho.symm.trans (opcodeOf_of_encode he))
  rw [he] at hl ⊢
  exact decode_intro ho hl (operandFields_of_encode he)

/-- Settles O8: what the decoder has checked is what `operandFields_of_demandedLength` asks for. -/
theorem encodeOfDecodeIsTheMessage : Obligations.EncodeOfDecodeIsTheMessage := by
  intro msg i h
  obtain ⟨b, operands, op, rfl, ho, hl, hf⟩ := decode_ok h
  obtain ⟨j, hj, hwf, he⟩ := operandFields_of_demandedLength ho hl
  obtain rfl : j = i := Option.some.inj (hj.symm.trans hf)
  exact ⟨hwf, he⟩

/-- Settles O9: eight closed messages, decoded by computation. -/
theorem sampleMessagesDecodeAsTheLayoutSays : Obligations.SampleMessagesDecodeAsTheLayoutSays := by
  unfold Obligations.SampleMessagesDecodeAsTheLayoutSays
  decide

end Sys2Proof

/-! PROOFS. The rules of the whole machine, each read off what one command can do (`exec_effect`): the statements O34 to O42. -/

namespace Sys2Proof.Machine

/-- Everything a command that answers a next state can have done. -/
theorem effect_of_exec {i : Instr} {s t : State} (h : exec i s = .next t) : Effect i s (.next t) := h ▸ exec_effect i s

/-! ### What a command adds to the two ports -/

/-- The codes of R110 are 0 to 6. -/
theorem Status.code_le (st : Status) : st.code.toNat ≤ 6 := by cases st <;> decide

/-- No two statuses share a code (R110). -/
theorem Status.code_injective : Function.Injective Status.code := by
  intro a b
  cases a <;> cases b <;> decide

/-- A command gives one response: a status, and bytes only after `OK` (R47, R110). -/
theorem exec_response {i : Instr} {s t : State} (h : exec i s = .next t) :
    ∃ (st : Status) (bytes : List Byte), t.responses = s.responses ++ [st.code :: bytes] ∧ (st ≠ .ok → bytes = []) := by
  cases effect_of_exec h with
  | answered bytes _ => exact ⟨.ok, bytes, rfl, fun h => absurd rfl h⟩
  | refused st _ _ _ => exact ⟨st, [], rfl, fun _ => rfl⟩
  | crcSwitched _ => exact ⟨.ok, [], rfl, fun _ => rfl⟩
  | begun ok _ _ _ _ =>
    cases ok with
    | true => exact ⟨.ok, [], by rw [afterBegin_true]; rfl, fun _ => rfl⟩
    | false => exact ⟨.failed, [], by rw [afterBegin_false]; rfl, fun _ => rfl⟩
  | addressed n _ _ _ => exact ⟨.ok, [], rfl, fun _ => rfl⟩
  | sent _ _ ok _ _ _ _ _ _ _ _ _ _ =>
    cases ok with
    | true => exact ⟨.ok, [], rfl, fun _ => rfl⟩
    | false => exact ⟨.txFail, [], rfl, fun _ => rfl⟩

/-- A command's calls stand after all earlier ones; each used up one reply (R43, R122). -/
theorem exec_calls {i : Instr} {s t : State} (h : exec i s = .next t) :
    ∃ calls, t.radioLog = s.radioLog ++ calls ∧ calls.length ≤ 8 ∧
      t.radioScript = s.radioScript.drop calls.length ∧ t.draws = s.draws + calls.length := by
  cases effect_of_exec h with
  | answered bytes _ => exact ⟨[], by simp⟩
  | refused st _ _ _ => exact ⟨[], by simp⟩
  | crcSwitched _ => exact ⟨[], by simp⟩
  | begun ok _ _ _ _ =>
    cases ok with
    | true => rw [afterBegin_true]; exact ⟨.begin true :: bringUpCalls config, rfl, le_rfl, rfl, rfl⟩
    | false => rw [afterBegin_false]; exact ⟨[.begin false], rfl, by decide, rfl, rfl⟩
  | addressed n _ _ _ => exact ⟨addressCalls config n, rfl, by simp [addressCalls], rfl, rfl⟩
  | sent _ _ ok _ _ _ _ _ _ _ _ _ _ => exact ⟨[.write _ ok], rfl, by simp, by simp [sentState], rfl⟩

/-- No command takes a move of the host (R10). -/
theorem exec_inbox {i : Instr} {s t : State} (h : exec i s = .next t) : t.inbox = s.inbox := by
  cases effect_of_exec h with
  | begun ok _ _ _ _ =>
    cases ok with
    | true => rw [afterBegin_true]
    | false => rw [afterBegin_false]
  | _ => rfl

/-- Settles O38, by `exec_calls` and `exec_response`. -/
theorem bothPortsHistoriesOnlyGrow : Obligations.BothPortsHistoriesOnlyGrow := by
  intro i s t h
  obtain ⟨st, bytes, hr, -⟩ := exec_response h
  exact ⟨exec_calls h, _, hr⟩

/-- Settles O34: a message is answered `ILLEGAL`, or its command gives the response of `exec_response`. -/
theorem everyMessageGetsExactlyOneResponse : Obligations.EveryMessageGetsExactlyOneResponse := by
  intro s t msg rest hin hstep
  cases hd : decode msg with
  | error e =>
    cases (step_illegal hin hd).symm.trans hstep
    exact ⟨rfl, 0x05, [], rfl, by decide, fun _ => rfl⟩
  | ok i =>
    have he := (step_command hin hd).symm.trans hstep
    obtain ⟨st, bytes, hr, hb⟩ := exec_response he
    exact ⟨exec_inbox he, st.code, bytes, hr, st.code_le, fun hne => hb fun hok => hne (hok ▸ rfl)⟩

/-! ### What a command writes -/

/-- Two ways to write one added response are the same response. -/
theorem response_eq {l : List (List Byte)} {a b : Byte} {as bs : List Byte} (h : l ++ [a :: as] = l ++ [b :: bs]) :
    a = b ∧ as = bs := by simpa using h

/-- Settles O35: of the outcomes with a status that refuses, only a refusal is left. -/
theorem aRefusedCommandLeavesNoTrace : Obligations.ARefusedCommandLeavesNoTrace := by
  intro i s t st bytes h hr h0 h1 h6
  cases effect_of_exec h with
  | answered bytes' _ => exact absurd (response_eq hr).1.symm h0
  | refused st' _ _ _ => obtain ⟨rfl, rfl⟩ := response_eq hr; rfl
  | crcSwitched _ => exact absurd (response_eq hr).1.symm h0
  | begun ok hp _ _ _ =>
    cases ok with
    | true => rw [afterBegin_true] at hr; exact absurd (response_eq hr).1.symm h0
    | false => rw [afterBegin_false] at hr; exact absurd ⟨(response_eq hr).1.symm, hp⟩ h6
  | addressed n _ _ _ => exact absurd (response_eq hr).1.symm h0
  | sent _ _ ok _ _ _ _ _ _ _ _ _ _ =>
    cases ok with
    | true => exact absurd (response_eq hr).1.symm h0
    | false => exact absurd (response_eq hr).1.symm h1

/-- Settles O36: a command that does not need the radio answers, is refused as its operands deserve, or switches the CRC. -/
theorem radioFreeCommandsRunInEveryPhase : Obligations.RadioFreeCommandsRunInEveryPhase := by
  intro i s hinit hcfg hsend
  have hfree : needsRadio i = false := by
    cases i with
    | init => exact absurd rfl hinit
    | cfgaddr a alen => exact absurd rfl (hcfg a alen)
    | send payload => exact absurd rfl (hsend payload)
    | _ => rfl
  have he := exec_effect i s
  generalize exec i s = o at he ⊢
  cases he with
  | answered bytes _ => exact ⟨_, 0x00, bytes, rfl, rfl, by decide, by decide, rfl, rfl⟩
  | refused st _ _ hr =>
    obtain ⟨hbad, hfail⟩ := hr hfree
    exact ⟨_, st.code, [], rfl, rfl, Status.code_injective.ne hbad, Status.code_injective.ne hfail, rfl, rfl⟩
  | crcSwitched _ => exact ⟨_, 0x00, [], rfl, rfl, by decide, by decide, rfl, rfl⟩
  | begun => cases hfree
  | addressed => cases hfree
  | sent => cases hfree
  | hung n hi _ =>
    obtain ⟨rfl, -⟩ | ⟨⟨a, b, rfl⟩, -⟩ | ⟨⟨payload, rfl⟩, -⟩ := hi <;> cases hfree
  | unwritten => cases hfree

/-- Settles O37: each outcome's update names the fields it writes. -/
theorem onlyTheAccessTablesWritersWrite : Obligations.OnlyTheAccessTablesWritersWrite := by
  intro i s t h
  cases effect_of_exec h with
  | answered bytes _ => simp
  | refused st _ _ _ => simp
  | crcSwitched _ => simp
  | begun ok _ _ _ _ =>
    cases ok with
    | true => simp [afterBegin_true]
    | false => simp [afterBegin_false]
  | addressed n _ _ _ => simp [storeAddress]
  | sent _ _ ok _ _ _ _ _ _ _ _ _ _ => simp [sentState]

/-- Settles O39: INIT and CFGADDR alone move the phase, each from the phase it is admitted in. -/
theorem phaseMovesOnlyForward : Obligations.PhaseMovesOnlyForward := by
  intro i s t h
  cases effect_of_exec h with
  | begun ok hp _ _ _ =>
    cases ok with
    | true => exact .inr (.inl ⟨rfl, hp, .inl rfl⟩)
    | false => exact .inr (.inl ⟨rfl, hp, .inr rfl⟩)
  | addressed n hp _ _ => exact .inr (.inr ⟨⟨_, _, rfl⟩, hp, rfl⟩)
  | _ => exact .inl rfl

/-- Settles O42: INIT and CFGADDR make no `write`, SEND makes one and counts it. -/
theorem thePacketCounterCountsWriteCalls : Obligations.ThePacketCounterCountsWriteCalls := by
  intro i s t h
  cases effect_of_exec h with
  | answered bytes _ => exact .inl ⟨rfl, [], by simp⟩
  | refused st _ _ _ => exact .inl ⟨rfl, [], by simp⟩
  | crcSwitched _ => exact .inl ⟨rfl, [], by simp⟩
  | begun ok _ _ _ _ =>
    cases ok with
    | true =>
      rw [afterBegin_true]
      exact .inl ⟨rfl, .begin true :: bringUpCalls config, rfl, by simp [bringUpCalls, RadioEvent.isWrite]⟩
    | false => rw [afterBegin_false]; exact .inl ⟨rfl, [.begin false], rfl, by simp [RadioEvent.isWrite]⟩
  | addressed n _ _ _ =>
    exact .inl ⟨rfl, addressCalls config n, rfl, by simp [addressCalls, RadioEvent.isWrite]⟩
  | sent _ _ ok _ _ _ _ _ _ _ _ _ _ => exact .inr ⟨_, _, ok, rfl, rfl, rfl⟩

/-! ### The two phases only reset leaves -/

/-- A command in READY writes none of the address registers and makes no call but `write` (R124 (b), R138). -/
theorem exec_ready {i : Instr} {s t : State} (hp : s.phase = .ready) (h : exec i s = .next t) :
    t.phase = .ready ∧ t.addr = s.addr ∧ t.alen = s.alen ∧ t.txa = s.txa ∧
      ∃ calls, t.radioLog = s.radioLog ++ calls ∧ ∀ e ∈ calls, e.isWrite = true := by
  cases effect_of_exec h with
  | answered bytes _ => exact ⟨hp, rfl, rfl, rfl, [], by simp⟩
  | refused st _ _ _ => exact ⟨hp, rfl, rfl, rfl, [], by simp⟩
  | crcSwitched _ => exact ⟨hp, rfl, rfl, rfl, [], by simp⟩
  | begun _ hu _ _ _ => cases hp.symm.trans hu
  | addressed _ hi _ _ => cases hp.symm.trans hi
  | sent _ _ ok _ _ _ _ _ _ _ _ _ _ => exact ⟨hp, rfl, rfl, rfl, [.write _ ok], rfl, by simp [RadioEvent.isWrite]⟩

/-- Every command in FAILED answers and makes no call (R102, R124 (d)). -/
theorem exec_failed (i : Instr) {s : State} (hp : s.phase = .failed) :
    ∃ t, exec i s = .next t ∧ t.phase = .failed ∧ t.radioLog = s.radioLog := by
  have he := exec_effect i s
  generalize exec i s = o at he ⊢
  cases he with
  | answered bytes _ => exact ⟨_, rfl, hp, rfl⟩
  | refused st _ _ _ => exact ⟨_, rfl, hp, rfl⟩
  | crcSwitched _ => exact ⟨_, rfl, hp, rfl⟩
  | begun _ hu _ _ _ => cases hp.symm.trans hu
  | addressed _ hi _ _ => cases hp.symm.trans hi
  | sent _ _ _ _ hr _ _ _ _ _ _ _ _ => cases hp.symm.trans hr
  | hung n hi _ => obtain ⟨-, hq, -⟩ | ⟨-, hq, -⟩ | ⟨-, hq, -⟩ := hi <;> cases hp.symm.trans hq
  | unwritten hr _ => cases hp.symm.trans hr

/-- Settles O40: the step is not the reset event, so it idles, answers `ILLEGAL`, or is a command of `exec_ready`. -/
theorem theAddressIsWriteOnce : Obligations.TheAddressIsWriteOnce := by
  intro s t hp hin hstep
  obtain ⟨-, hs⟩ | ⟨rest, hr, -⟩ | ⟨-, rest, -, -, -, hs⟩ | ⟨-, rest, i, -, -, hs⟩ := step_cases s
  · cases hs.symm.trans hstep; exact ⟨hp, rfl, rfl, rfl, [], by simp⟩
  · simp [hr] at hin
  · cases hs.symm.trans hstep; exact ⟨hp, rfl, rfl, rfl, [], by simp⟩
  · exact exec_ready (s := withInbox rest s) hp (hs.symm.trans hstep)

/-- Settles O41: as O40, with `exec_failed`. -/
theorem failedIsLeftOnlyByReset : Obligations.FailedIsLeftOnlyByReset := by
  intro s hp hin
  obtain ⟨-, hs⟩ | ⟨rest, hr, -⟩ | ⟨-, rest, -, -, -, hs⟩ | ⟨-, rest, i, -, -, hs⟩ := step_cases s
  · exact ⟨s, hs, hp, rfl⟩
  · simp [hr] at hin
  · exact ⟨_, hs, hp, rfl⟩
  · rw [hs]; exact exec_failed i (s := withInbox rest s) hp

end Sys2Proof.Machine

/-! PROOFS. What every step keeps (10_state.md R23, 60_exceptions.md R124): the statements O43, O44, O45, O46, O47 and O48. -/

namespace Sys2Proof.Machine

/-! ### The invariants of the registers and the frame buffer -/

theorem State.Inv.respond {s : State} (h : s.Inv) (st : Status) (bytes : List Byte) : (respond st bytes s).Inv :=
  ⟨h.readyWritten, h.elseUnwritten, h.flenInBuffer, h.frameWritten, h.fbCanonical⟩

theorem State.Inv.withInbox {s : State} (h : s.Inv) (moves : List HostMove) : (withInbox moves s).Inv :=
  ⟨h.readyWritten, h.elseUnwritten, h.flenInBuffer, h.frameWritten, h.fbCanonical⟩

theorem State.Inv.setCrcen {s : State} (h : s.Inv) (e : Bool) : (setCrcen e s).Inv :=
  ⟨h.readyWritten, h.elseUnwritten, h.flenInBuffer, h.frameWritten, h.fbCanonical⟩

/-- R23 at the values of R21, whatever the environment still has to say. -/
theorem resetBlock_inv (s : State) : (resetBlock s).Inv where
  readyWritten h := by cases h
  elseUnwritten _ := ⟨rfl, rfl, rfl, rfl, rfl⟩
  flenInBuffer := Nat.zero_le _
  frameWritten a h := absurd h (Nat.not_lt_zero a)
  fbCanonical := wf_reset

/-- INIT leaves UNINIT with the registers unwritten (R23 (b)). -/
theorem afterBegin_inv {s : State} (h : s.Inv) (hp : s.phase = .uninit) (p : Config.Params) (ok : Bool) :
    (afterBegin p ok (answered s)).Inv := by
  have hu := h.elseUnwritten (by simp [hp])
  cases ok with
  | true => rw [afterBegin_true]; exact ⟨by simp, fun _ => hu, h.flenInBuffer, h.frameWritten, h.fbCanonical⟩
  | false => rw [afterBegin_false]; exact ⟨by simp, fun _ => hu, h.flenInBuffer, h.frameWritten, h.fbCanonical⟩

/-- CFGADDR writes the three registers READY needs (R23 (a)). -/
theorem storeAddress_inv {s : State} (h : s.Inv) (p : Config.Params) (a : Bytes5) (n : AddrLen) :
    (storeAddress p a n s).Inv where
  readyWritten _ := ⟨rfl, rfl, rfl⟩
  elseUnwritten hn := absurd rfl hn
  flenInBuffer := h.flenInBuffer
  frameWritten := h.frameWritten
  fbCanonical := h.fbCanonical

/-- A frame that passes the size checks fits the buffer (R88). -/
theorem frameOf_length_le {p : Config.Params} {alen : AddrLen} {crcen : Bool} {payload : List Byte} (addr : Bytes5)
    (h : sizesOk p alen crcen payload.length) : (frameOf p addr alen crcen payload).length ≤ Config.fbSize :=
  (frameOf_length addr h).trans_le h.2.2

/-- SEND sets `FLEN` to the length of a frame it has just written (R23 (c)). -/
theorem sentState_inv {s : State} (h : s.Inv) (hp : s.phase = .ready) {m : Memory} {frame : List Byte} (ok : Bool)
    (hlen : frame.length ≤ Config.fbSize) (hw : m.wf)
    (hr : ∀ x, readCell m x = if x < frame.length then frame[x]? else readCell s.fb x) : (sentState m frame ok s).Inv where
  readyWritten := h.readyWritten
  elseUnwritten hn := absurd hp hn
  flenInBuffer := hlen
  frameWritten x (hx : x < frame.length) := by
    show (readCell m x).isSome
    rw [hr, if_pos hx, List.getElem?_eq_getElem hx, Option.isSome_some]
  fbCanonical := hw

/-- Every command keeps R23. -/
theorem exec_keeps_inv {i : Instr} {s t : State} (h : s.Inv) (he : exec i s = .next t) : t.Inv := by
  cases effect_of_exec he with
  | answered bytes _ => exact h.respond _ _
  | refused st _ _ _ => exact h.respond _ _
  | crcSwitched _ => exact (h.setCrcen _).respond _ _
  | begun ok hp _ _ _ => exact afterBegin_inv h hp config ok
  | addressed n _ _ _ => exact (storeAddress_inv h config _ n).respond _ _
  | sent addr alen ok m hp _ _ hs _ _ hr hw _ =>
    exact sentState_inv h hp ok (frameOf_length_le addr hs) (hw h.fbCanonical) hr

/-- Settles O44: a step idles, resets, answers `ILLEGAL` or runs a command, and each keeps R23. -/
theorem everyStepKeepsTheInvariants : Obligations.EveryStepKeepsTheInvariants := by
  intro s t h hstep
  obtain ⟨-, hi⟩ | ⟨rest, -, hr⟩ | ⟨-, rest, -, -, -, hm⟩ | ⟨-, rest, i, -, -, hc⟩ := step_cases s
  · cases hi.symm.trans hstep; exact h
  · cases hr.symm.trans hstep; exact resetBlock_inv _
  · cases hm.symm.trans hstep; exact (h.withInbox rest).respond _ _
  · exact exec_keeps_inv (h.withInbox rest) (hc.symm.trans hstep)

/-! ### The promise on the radio port -/

/-- `RadioPromise` in READY, for the address length and the `write` calls it speaks of (R124 (b), R16, R17, R19). -/
structure ReadyPromise (s : State) (alen : AddrLen) (writes : List RadioEvent) : Prop where
  alenWritten : s.alen = some alen
  txaWritten : s.txa = some (config.preambleAddr alen)
  log : s.radioLog = configuredCalls alen ++ writes
  onlyWrites : ∀ e ∈ writes, e.isWrite = true
  counted : s.pktcnt = BitVec.ofNat Config.pktcntWidth writes.length
  noFrame : writes = [] → s.flen = 0
  lastFrame : ∀ frame ok, writes.getLast? = some (.write frame ok) → fbLoad s.fb 0 s.flen = .ok frame

theorem radioPromise_uninit {s : State} (hp : s.phase = .uninit) : s.RadioPromise ↔ s.radioLog = [] := by
  simp only [State.RadioPromise, hp]

theorem radioPromise_failed {s : State} (hp : s.phase = .failed) : s.RadioPromise ↔ s.radioLog = [.begin false] := by
  simp only [State.RadioPromise, hp]

theorem radioPromise_inited {s : State} (hp : s.phase = .inited) : s.RadioPromise ↔ s.radioLog = initCalls := by
  simp only [State.RadioPromise, hp]

theorem radioPromise_ready {s : State} (hp : s.phase = .ready) :
    s.RadioPromise ↔ ∃ alen writes, ReadyPromise s alen writes := by
  simp only [State.RadioPromise, hp]
  constructor
  · rintro ⟨alen, writes, ha, ht, hl, hw, hc, hn, hf⟩
    exact ⟨alen, writes, ha, ht, hl, hw, hc, hn, hf⟩
  · rintro ⟨alen, writes, ha, ht, hl, hw, hc, hn, hf⟩
    exact ⟨alen, writes, ha, ht, hl, hw, hc, hn, hf⟩

/-- A response makes no radio call and writes no register. -/
theorem radioPromise_respond {s : State} (st : Status) (bytes : List Byte) :
    (respond st bytes s).RadioPromise ↔ s.RadioPromise := Iff.rfl

theorem radioPromise_withInbox {s : State} (moves : List HostMove) :
    (withInbox moves s).RadioPromise ↔ s.RadioPromise := Iff.rfl

theorem radioPromise_setCrcen {s : State} (e : Bool) : (setCrcen e s).RadioPromise ↔ s.RadioPromise := Iff.rfl

theorem resetBlock_radioPromise (s : State) : (resetBlock s).RadioPromise := (radioPromise_uninit rfl).2 rfl

/-- INIT's calls are the first since reset (R124 (a), (d)). -/
theorem afterBegin_radioPromise {s : State} (h : s.RadioPromise) (hp : s.phase = .uninit) (ok : Bool) :
    (afterBegin config ok (answered s)).RadioPromise := by
  have hlog := (radioPromise_uninit hp).1 h
  cases ok with
  | true => rw [afterBegin_true, radioPromise_inited rfl, hlog]; rfl
  | false => rw [afterBegin_false, radioPromise_failed rfl, hlog]; rfl

/-- CFGADDR's calls follow INIT's, and nothing has been sent yet (R124 (a), R17). -/
theorem storeAddress_radioPromise {s : State} (hi : s.Inv) (h : s.RadioPromise) (hp : s.phase = .inited) (a : Bytes5)
    (n : AddrLen) : (storeAddress config a n s).RadioPromise := by
  obtain ⟨-, -, -, hflen, hcnt⟩ := hi.elseUnwritten (by simp [hp])
  have hlog := (radioPromise_inited hp).1 h
  exact (radioPromise_ready rfl).2 ⟨n, [], {
    alenWritten := rfl
    txaWritten := rfl
    log := by simp [storeAddress, hlog, configuredCalls]
    onlyWrites := by simp
    counted := hcnt
    noFrame := fun _ => hflen
    lastFrame := by simp }⟩

/-- SEND adds one `write`, counted, of what it leaves in the buffer (R124 (b), R16, R19). -/
theorem sentState_radioPromise {s : State} (h : s.RadioPromise) (hp : s.phase = .ready) {m : Memory} {frame : List Byte}
    (ok : Bool) (hm : fbLoad m 0 frame.length = .ok frame) : (sentState m frame ok s).RadioPromise := by
  obtain ⟨alen, writes, h⟩ := (radioPromise_ready hp).1 h
  exact (radioPromise_ready (s := sentState m frame ok s) hp).2 ⟨alen, writes ++ [.write frame ok], {
    alenWritten := h.alenWritten
    txaWritten := h.txaWritten
    log := by simp [sentState, h.log]
    onlyWrites := by simpa [or_imp, forall_and, RadioEvent.isWrite] using h.onlyWrites
    counted := by simp [sentState, h.counted, BitVec.ofNat_add]
    noFrame := by simp
    lastFrame := by
      simp only [List.getLast?_concat, Option.some.injEq, RadioEvent.write.injEq]
      rintro _ _ ⟨rfl, rfl⟩
      exact hm }⟩

/-- Every command keeps the promise. -/
theorem exec_keeps_radioPromise {i : Instr} {s t : State} (hi : s.Inv) (h : s.RadioPromise) (he : exec i s = .next t) :
    t.RadioPromise := by
  cases effect_of_exec he with
  | answered bytes _ => exact (radioPromise_respond _ _).2 h
  | refused st _ _ _ => exact (radioPromise_respond _ _).2 h
  | crcSwitched _ => exact (radioPromise_respond _ _).2 ((radioPromise_setCrcen _).2 h)
  | begun ok hp _ _ _ => exact afterBegin_radioPromise h hp ok
  | addressed n hp _ _ => exact (radioPromise_respond _ _).2 (storeAddress_radioPromise hi h hp _ n)
  | sent _ _ ok _ hp _ _ _ _ _ _ _ hm => exact sentState_radioPromise h hp ok hm

/-- Settles O45: as O44, with the promise of each way a step can go. -/
theorem everyStepKeepsTheRadioPromise : Obligations.EveryStepKeepsTheRadioPromise := by
  intro s t hi h hstep
  obtain ⟨-, hs⟩ | ⟨rest, -, hr⟩ | ⟨-, rest, -, -, -, hm⟩ | ⟨-, rest, i, -, -, hc⟩ := step_cases s
  · cases hs.symm.trans hstep; exact h
  · cases hr.symm.trans hstep; exact resetBlock_radioPromise _
  · cases hm.symm.trans hstep; exact (radioPromise_respond _ _).2 ((radioPromise_withInbox rest).2 h)
  · exact exec_keeps_radioPromise (hi.withInbox rest) ((radioPromise_withInbox rest).2 h) (hc.symm.trans hstep)

/-- Settles O43: the reset state is what the reset event makes of itself. -/
theorem resetMeetsTheInvariants : Obligations.ResetMeetsTheInvariants :=
  ⟨resetBlock_inv .reset, resetBlock_radioPromise .reset⟩

/-! ### Where a step stops -/

/-- Settles O46: no outcome of a command, and no other step, is that fault. -/
theorem noStepLeavesAnIndexSpace : Obligations.NoStepLeavesAnIndexSpace := by
  intro s h
  obtain ⟨-, hs⟩ | ⟨rest, -, hs⟩ | ⟨-, rest, -, -, -, hs⟩ | ⟨-, rest, i, -, -, hs⟩ := step_cases s <;> rw [hs] at h
  · cases h
  · cases h
  · cases h
  · have he := exec_effect i (withInbox rest s)
    rw [h] at he
    cases he

/-- A command makes at most eight radio calls, so a call that hangs it is among the next eight (R101, R83, R92). -/
theorem exec_stops_only_with_the_radio (i : Instr) {s : State} (h : s.Inv) :
    (∃ t, exec i s = .next t) ∨ (exec i s = .fault .radioNeverReturns ∧ .never ∈ s.radioScript.take 8) := by
  have he := exec_effect i s
  generalize exec i s = o at he ⊢
  cases he with
  | hung n hi hn =>
    have h8 : n ≤ 8 := by omega
    exact .inr ⟨rfl, List.take_subset_take_left _ h8 hn⟩
  | unwritten hp hu =>
    obtain ⟨ha, hl, -⟩ := h.readyWritten hp
    obtain hu | hu := hu
    · simp [hu] at ha
    · simp [hu] at hl
  | _ => exact .inl ⟨_, rfl⟩

/-- Settles O47: only a command can stop, and `exec_stops_only_with_the_radio` says where. -/
theorem safeStatesStopOnlyWithTheRadio : Obligations.SafeStatesStopOnlyWithTheRadio := by
  intro s h
  obtain ⟨-, hs⟩ | ⟨rest, -, hs⟩ | ⟨-, rest, -, -, -, hs⟩ | ⟨-, rest, i, -, -, hs⟩ := step_cases s <;>
    rw [State.StopsOnlyWithTheRadio, hs]
  · exact .inl ⟨_, rfl⟩
  · exact .inl ⟨_, rfl⟩
  · exact .inl ⟨_, rfl⟩
  · exact exec_stops_only_with_the_radio i (h.withInbox rest)

/-! ### Runs -/

theorem run_succ {k : Nat} {s t : State} (h : step s = .next t) :
    Host.Core.run Sys2Proof.core (k + 1) s = Host.Core.run Sys2Proof.core k t := by
  simp only [Host.Core.run]
  rw [show Sys2Proof.core.step s = .next t from h]

/-- What every step goes on from and keeps, every run goes on from and keeps. -/
theorem run_induction {P : State → Prop} (hstep : ∀ s, P s → ∃ t, step s = .next t ∧ P t) (k : Nat) {s : State} (h : P s) :
    ∃ t : State, Host.Core.run Sys2Proof.core k s = .next t ∧ P t := by
  induction k generalizing s with
  | zero => exact ⟨s, rfl, h⟩
  | succ k ih =>
    obtain ⟨t, hs, ht⟩ := hstep s h
    rw [run_succ hs]
    exact ih ht

/-- No step places a reply of the radio. -/
theorem step_radioScript {s t : State} (h : step s = .next t) : t.radioScript ⊆ s.radioScript := by
  obtain ⟨-, hs⟩ | ⟨rest, -, hs⟩ | ⟨-, rest, -, -, -, hs⟩ | ⟨-, rest, i, -, -, hs⟩ := step_cases s
  · cases hs.symm.trans h; exact List.Subset.refl _
  · cases hs.symm.trans h; exact List.Subset.refl _
  · cases hs.symm.trans h; exact List.Subset.refl _
  · obtain ⟨calls, -, -, hscript, -⟩ := exec_calls (hs.symm.trans h)
    rw [hscript]
    exact List.drop_subset _ _

/-- A safe state from which the radio always returns. -/
structure Running (s : State) : Prop where
  inv : s.Inv
  promise : s.RadioPromise
  returns : .never ∉ s.radioScript

/-- Such a state steps to another one. -/
theorem Running.step {s : State} (h : Running s) : ∃ t, step s = .next t ∧ Running t := by
  obtain ⟨t, hs⟩ | ⟨-, hn⟩ := safeStatesStopOnlyWithTheRadio s h.inv
  · exact ⟨t, hs, everyStepKeepsTheInvariants s t h.inv hs, everyStepKeepsTheRadioPromise s t h.inv h.promise hs,
      fun hn => h.returns (step_radioScript hs hn)⟩
  · exact absurd (List.mem_of_mem_take hn) h.returns

/-- Settles O48, by `run_induction` from the reset state. -/
theorem everyRunGoesOnWhileTheRadioReturns : Obligations.EveryRunGoesOnWhileTheRadioReturns := by
  intro k moves script hscript
  have start : Running { State.reset with inbox := moves, radioScript := script } :=
    ⟨resetBlock_inv { State.reset with inbox := moves, radioScript := script }, (radioPromise_uninit rfl).2 rfl, hscript⟩
  obtain ⟨t, hrun, ht⟩ := run_induction (fun _ h => h.step) k start
  exact ⟨t, hrun, ht.inv, ht.promise⟩

end Sys2Proof.Machine

/-! PROOFS. The byte transforms and the CRC engine (40_byte_transforms.md R62, R64, R65; 41_crc_engine.md R70 to R77): the
statements O11, O13, O14, O15, O16, O17, O19 and O20. -/

namespace Sys2Proof.Machine

/-! ### Bit reversal and whitening -/

theorem bitReverse_involutive : Function.Involutive bitReverse := by
  intro b
  refine BitVec.eq_of_getLsbD_eq fun i hi => ?_
  rw [getLsbD_bitReverse _ hi, getLsbD_bitReverse _ (by omega), show 7 - (7 - i) = i by omega]

theorem bitReverse_xor (a b : Byte) : bitReverse (a ^^^ b) = bitReverse a ^^^ bitReverse b := by
  refine BitVec.eq_of_getLsbD_eq fun i hi => ?_
  simp only [getLsbD_bitReverse _ hi, BitVec.getLsbD_xor]

/-- Settles O11. -/
theorem bitReverseLaws : Obligations.BitReverseLaws :=
  ⟨bitReverse_involutive, bitReverse_involutive.bijective, bitReverse_xor⟩

/-- WHITEN past the table, under any parameters (R64). -/
theorem whitenUnder_of_length_le {p : Config.Params} {i : Byte} (b : Byte) (s : State) (h : p.scramble.length ≤ i.toNat) :
    whitenUnder p b i s = .next (respond .range [] s) := by
  simp only [whitenUnder, unsigned, whitenByte_of_length_le b h, refuse_eq_respond]

/-- Settles O13, by `whitenUnder_of_length_le`. -/
theorem whitenRefusesAnIndexPastTheTable : Obligations.WhitenRefusesAnIndexPastTheTable :=
  ⟨exec_whiten, fun _ b _ s h => whitenUnder_of_length_le b s h⟩

/-- Settles O14: at a valid index whitening is exclusive-or with one table entry. -/
theorem whiteningLaws : Obligations.WhiteningLaws := by
  intro p i hi
  simp only [whitenByte_of_lt _ hi, Option.some.injEq]
  refine ⟨fun r => ⟨r ^^^ p.scramble[i], ?_, ?_⟩, ?_⟩
  · simp
  · rintro b rfl
    simp
  · rintro a b _ _ rfl rfl
    exact ⟨by simp, by ac_nf; simp⟩

/-! ### The CRC register -/

/-- The bit that selects the polynomial, by number (R70). -/
theorem crcShift_eq (c : Half) : crcShift c = if c.getLsbD 15 then (c <<< 1) ^^^ 0x1021 else c <<< 1 := rfl

/-- One shift is linear: the polynomial enters as often as the bits that leave differ. -/
theorem crcShift_xor (c d : Half) : crcShift (c ^^^ d) = crcShift c ^^^ crcShift d := by
  simp only [crcShift, BitVec.msb_xor, BitVec.shiftLeft_xor_distrib]
  cases c.msb <;> cases d.msb <;> simp only [Bool.xor_false, Bool.xor_true, Bool.not_true, Bool.not_false,
    Bool.false_eq_true, if_true, if_false]
  · ac_rfl
  · ac_rfl
  · -- both bits leave: the polynomial enters twice and cancels
    ac_nf
    simp

/-- `crc_update` is linear in the register and the byte together (R77 (c)). -/
theorem crcUpdate_xor (c d : Half) (a b : Byte) : crcUpdate (c ^^^ d) (a ^^^ b) = crcUpdate c a ^^^ crcUpdate d b := by
  have hin : c ^^^ d ^^^ ((a ^^^ b).setWidth 16 <<< 8) = c ^^^ a.setWidth 16 <<< 8 ^^^ (d ^^^ b.setWidth 16 <<< 8) := by
    rw [BitVec.setWidth_xor, BitVec.shiftLeft_xor_distrib]
    ac_rfl
  simp only [crcUpdate, Nat.repeat, hin, crcShift_xor]

/-- A shift that gives 0 started from 0: the polynomial is odd, so it never cancels a shifted register. -/
theorem eq_zero_of_crcShift {c : Half} (h : crcShift c = 0) : c = 0 := by
  cases hm : c.msb with
  | true =>
    have h0 : (crcShift c).getLsbD 0 = false := by rw [h]; rfl
    simp [crcShift, hm, Config.crcPoly] at h0
  | false =>
    have hc : 2 * c.toNat < 2 ^ 16 := BitVec.msb_eq_false_iff_two_mul_lt.1 hm
    have hs : (c <<< 1).toNat = 0 := by simpa [crcShift, hm] using congrArg BitVec.toNat h
    rw [BitVec.toNat_shiftLeft, Nat.shiftLeft_eq] at hs
    exact BitVec.eq_of_toNat_eq (by simp; omega)

/-- Different registers differ after a shift. -/
theorem crcShift_injective : Function.Injective crcShift := fun c d h =>
  BitVec.xor_eq_zero_iff.1 (eq_zero_of_crcShift ((crcShift_xor c d).trans (by rw [h]; exact BitVec.xor_self)))

/-- The eight shifts keep apart what enters them. -/
theorem crcUpdate_eq_iff {c d : Half} {a b : Byte} :
    crcUpdate c a = crcUpdate d b ↔ c ^^^ (a.setWidth 16 <<< 8) = d ^^^ (b.setWidth 16 <<< 8) := by
  simp only [crcUpdate, Nat.repeat, crcShift_injective.eq_iff]

/-- From one register, the result of the eight shifts tells the byte that entered (R70: it entered unreduced). -/
theorem byte_of_crcUpdate {c : Half} {a b : Byte} (h : crcUpdate c a = crcUpdate c b) : a = b := by
  have hin := congrArg BitVec.toNat ((BitVec.xor_right_inj c).1 (crcUpdate_eq_iff.1 h))
  simp only [BitVec.toNat_shiftLeft, BitVec.toNat_setWidth, Nat.shiftLeft_eq] at hin
  exact BitVec.eq_of_toNat_eq (by omega)

/-- Different registers stay different over the same bytes. -/
theorem crcFrom_injective (d : List Byte) : Function.Injective (crcFrom · d) := by
  induction d with
  | nil => exact fun _ _ h => h
  | cons a d ih => exact fun r q h => (BitVec.xor_left_inj _).1 (crcUpdate_eq_iff.1 (ih h))

theorem crcFrom_append (r : Half) (d e : List Byte) : crcFrom r (d ++ e) = crcFrom (crcFrom r d) e := List.foldl_append

/-- Two runs over sequences of one length, from any two registers, differ by the run over the difference. -/
theorem crcFrom_xor {d e : List Byte} (h : d.length = e.length) (r q : Half) :
    crcFrom r d ^^^ crcFrom q e = crcFrom (r ^^^ q) (List.zipWith (· ^^^ ·) d e) := by
  induction d generalizing e r q with
  | nil => cases e with
    | nil => rfl
    | cons b e => cases h
  | cons a d ih => cases e with
    | nil => cases h
    | cons b e =>
      have := ih (Nat.succ.inj h) (crcUpdate r a) (crcUpdate q b)
      rwa [← crcUpdate_xor] at this

/-- A sequence with one byte replaced by a different one has a different run. -/
theorem crcSeq_set_ne {d : List Byte} {j : Nat} (hj : j < d.length) {v : Byte} (hv : v ≠ d[j]) :
    crcSeq (d.set j v) ≠ crcSeq d := by
  intro h
  have hd : d = d.take j ++ d[j] :: d.drop (j + 1) := by simp
  rw [List.set_eq_take_append_cons_drop, if_pos hj] at h
  conv at h => rhs; rw [hd]
  simp only [crcSeq, crcFrom_append] at h
  exact hv (byte_of_crcUpdate (crcFrom_injective _ h))

/-- Settles O15: the shifts by unfolding, the examples by computation. -/
theorem crcUpdateIsEightShiftsWithThePolynomial : Obligations.CrcUpdateIsEightShiftsWithThePolynomial := by
  refine ⟨crcShift_eq, fun _ _ => rfl, ?_⟩
  decide

/-- Settles O16. -/
theorem crcSeqUpdatesTheSeedByteByByte : Obligations.CrcSeqUpdatesTheSeedByteByByte :=
  ⟨rfl, fun d a => crcFrom_append _ d [a]⟩

/-- Settles O19: the two seeds cancel in `crcFrom_xor`. -/
theorem crcRunIsLinear : Obligations.CrcRunIsLinear := by
  intro d e h
  rw [crcSeq, crcSeq, crcFrom_xor h, BitVec.xor_self]
  rfl

/-- Settles O20: a flipped bit makes a different byte, and the XOR-out entry cancels. -/
theorem everySingleBitFlipChangesTheCrc : Obligations.EverySingleBitFlipChangesTheCrc := by
  intro d j hj b x hb h
  have flipped : d[j] ^^^ (1#8 <<< b) ≠ d[j] := fun he => by
    have hbit : (d[j] ^^^ (1#8 <<< b)).getLsbD b = d[j].getLsbD b := by rw [he]
    simp [hb] at hbit
  exact crcSeq_set_ne hj flipped ((BitVec.xor_left_inj x).1 h)

end Sys2Proof.Machine

/-! PROOFS. SEND (42_framer.md R86 to R97): its refusals, the layout of the frame, and what the frame depends on and determines.
The statements O18, O26 to O30 and O32; and the command CRC, which shares the supported-pair check: O17. -/

namespace Sys2Proof.Machine

/-! ### The supported-pair check -/

theorem addrLen_bounds (n : AddrLen) : 3 ≤ n.toNat ∧ n.toNat ≤ 5 := by cases n <;> decide

/-- A length operand in 3 .. 5 is a stored length (R14, R81). -/
theorem exists_addrLen {b : Byte} (h3 : 3 ≤ b.toNat) (h5 : b.toNat ≤ 5) : ∃ n : AddrLen, b.toNat = n.toNat := by
  cases hb : addrLenOf b with
  | none => have := addrLenOf_none.1 hb; simp only [Config.alenMin, Config.alenMax] at this; omega
  | some n => exact ⟨n, addrLenOf_some hb⟩

/-- With a legal length the entry of a pair is the table's (R73). -/
theorem xorEntry_of_addrLen {p : Config.Params} {alen : Byte} {n : AddrLen} (plen : Nat) (h : alen.toNat = n.toNat) :
    xorEntry p alen plen = p.xorout[alen.toNat - 3 + plen]? := by
  simp only [xorEntry, addrLenOf_toNat n h, romX, xorIndex, Config.alenMin, h]

/-- An unsupported pair has no entry (R74). -/
theorem xorEntry_of_unsupported {p : Config.Params} {alen : Byte} {plen : Nat}
    (h : ¬(3 ≤ alen.toNat ∧ alen.toNat ≤ 5 ∧ alen.toNat - 3 + plen < p.xorout.length)) : xorEntry p alen plen = none := by
  cases ha : addrLenOf alen with
  | none => simp only [xorEntry, ha]
  | some n =>
    have hn := addrLenOf_some ha
    have hb := addrLen_bounds n
    rw [xorEntry_of_addrLen plen hn]
    exact List.getElem?_eq_none (by omega)

theorem exec_crc (alen plen off len : Byte) (buf : List Byte) (s : State) :
    exec (.crc alen plen off len buf) s = crcUnder config alen plen off len buf s := rfl

/-- Settles O17: the pair's entry is the table's (`xorEntry_of_addrLen`). -/
theorem crcAnswersTheXoredRunForASupportedPair : Obligations.CrcAnswersTheXoredRunForASupportedPair := by
  intro alen plen off len buf s h3 h5 h v hv
  obtain ⟨n, hn⟩ := exists_addrLen h3 h5
  have entry : xorEntry config alen (unsigned plen) = some config.xorout[alen.toNat - 3 + plen.toNat] := by
    rw [xorEntry_of_addrLen _ hn]
    exact List.getElem?_eq_getElem h
  rw [exec_crc, crcUnder, entry, hv]
  rfl

/-! ### The refusals of SEND -/

section
variable {p : Config.Params} {payload : List Byte} {s : State}

theorem exec_send (payload : List Byte) (s : State) : exec (.send payload) s = sendUnder config payload s := rfl

theorem sendUnder_failed (hp : s.phase = .failed) : sendUnder p payload s = .next (respond .failed [] s) := by
  simp only [sendUnder, hp, refuse_eq_respond]

theorem sendUnder_unconfigured (hp : s.phase = .uninit ∨ s.phase = .inited) :
    sendUnder p payload s = .next (respond .badPhase [] s) := by
  obtain hp | hp := hp <;> simp only [sendUnder, hp, refuse_eq_respond]

/-- R88: the size checks come before anything is assembled. -/
theorem sendUnder_unsupported {a : AddrLen} (hp : s.phase = .ready) (hl : s.alen = some a)
    (hs : ¬sizesOk p a s.crcen payload.length) : sendUnder p payload s = .next (respond .cfgErr [] s) := by
  simp only [sendUnder, hp, hl, written, if_neg hs, refuse_eq_respond]

/-- Everything SEND can do once it is admitted and its sizes pass (R90 to R93). -/
theorem sendUnder_admitted {addr : Bytes5} {a : AddrLen} (hp : s.phase = .ready) (ha : s.addr = some addr)
    (hl : s.alen = some a) (hs : sizesOk p a s.crcen payload.length) :
    ∃ m, (∀ x, readCell m x = if x < (frameOf p addr a s.crcen payload).length then
        (frameOf p addr a s.crcen payload)[x]? else readCell s.fb x) ∧
      ((∃ ok, sendUnder p payload s = .next (sentState m (frameOf p addr a s.crcen payload) ok s) ∧
        s.radioScript.head? ≠ some .never ∧ ∀ c, s.radioScript.head? = some (.answer c) → ok = c) ∨
      (sendUnder p payload s = .fault .radioNeverReturns ∧ s.radioScript.head? = some .never)) := by
  obtain ⟨m, hr, -, -, hsent⟩ := sendFrame_cases ha hs
  refine ⟨m, hr, ?_⟩
  simp only [sendUnder, hp, hl, written, if_pos hs]
  obtain ⟨ok, he, hok⟩ | ⟨he, hn⟩ := hsent
  · exact .inl ⟨ok, by rw [he], hok⟩
  · exact .inr ⟨by rw [he], hn⟩

end

/-- Settles O27, phase by phase. -/
theorem sendBeforeConfigurationIsRefused : Obligations.SendBeforeConfigurationIsRefused :=
  fun _ _ => ⟨sendUnder_failed, sendUnder_unconfigured⟩

/-- Settles O28: each of the three checks is one conjunct of `sizesOk`. -/
theorem sendOfUnsupportedSizesIsRefused : Obligations.SendOfUnsupportedSizesIsRefused := by
  refine ⟨exec_send, fun p s payload a hp hl hbad => sendUnder_unsupported hp hl ?_⟩
  rintro ⟨htable, hpair, hfit⟩
  simp only [xorIndex, Config.alenMin, fillerLen, crcTrailerLen, Config.crcBytes, Config.fbSize] at hpair hfit
  omega

/-- Settles O18: CRC has no entry to use, and SEND fails its second check. -/
theorem unsupportedPairsAreRefusedWithCfgerr : Obligations.UnsupportedPairsAreRefusedWithCfgerr := by
  refine ⟨exec_crc, exec_send, fun p alen plen off len buf s h => ?_, fun p payload s a hp hl h => ?_⟩
  · rw [crcUnder, xorEntry_of_unsupported h]
    rfl
  · exact sendUnder_unsupported hp hl fun hs => absurd hs.2.1 (not_lt.2 h)

/-- Settles O32: `ALEN` is read before the size checks, `ADDR` right after them. -/
theorem sendFaultsOnAnUnwrittenRegister : Obligations.SendFaultsOnAnUnwrittenRegister := by
  refine fun s payload hp => ⟨fun hl => ?_, fun a hl ha hs => ?_⟩
  · simp only [exec_send, sendUnder, hp, hl, written]
  · simp only [exec_send, sendUnder, hp, hl, written, if_pos hs, sendFrame, ha, bind, Except.bind]

/-! ### The layout of the frame (R33) -/

section
variable {p : Config.Params} {addr : Bytes5} {a : AddrLen} {crcen : Bool} {payload : List Byte}

theorem onAirAddress_getElem? {i : Nat} (hi : i < a.toNat) : (onAirAddress addr a)[i]? = addr.toList[a.toNat - 1 - i]? := by
  have hlen : (addr.toList.take a.toNat).length = a.toNat := by cases a <;> rfl
  rw [onAirAddress, List.getElem?_reverse (by omega), hlen, List.getElem?_take, if_pos (by omega)]

/-- A byte of the whitened part, from the byte before whitening and its table entry (R63, R90). -/
theorem airBytes_getElem? {i : Nat} {x k : Byte} (hx : (onAirAddress addr a ++ onAirPayload payload)[i]? = some x)
    (hk : p.scramble[i]? = some k) : (airBytes p addr a payload)[i]? = some (x ^^^ k) := by
  simp only [airBytes, List.getElem?_zipWith, hx, hk]

theorem frameOf_filler (hf : fillerLen a = 1) : (frameOf p addr a crcen payload)[0]? = some 0x55 := by
  cases a with
  | three => rfl
  | four | five => cases hf

/-- The whitened bytes stand behind the filler. -/
theorem frameOf_air {i : Nat} (hs : a.toNat + payload.length ≤ p.scramble.length) (hi : i < a.toNat + payload.length) :
    (frameOf p addr a crcen payload)[fillerLen a + i]? = (airBytes p addr a payload)[i]? := by
  rw [frameOf, List.append_assoc, List.getElem?_append_right (by simp), fillerField_length, Nat.add_sub_cancel_left,
    List.getElem?_append_left (by rwa [airBytes_length addr hs])]

/-- The CRC bytes stand behind the whitened bytes. -/
theorem frameOf_trailer {i : Nat} (hs : a.toNat + payload.length ≤ p.scramble.length) :
    (frameOf p addr a crcen payload)[fillerLen a + a.toNat + payload.length + i]? =
      (crcField p addr a crcen payload)[i]? := by
  have hlen : (fillerField a ++ airBytes p addr a payload).length = fillerLen a + a.toNat + payload.length := by
    rw [List.length_append, fillerField_length, airBytes_length addr hs, Nat.add_assoc]
  rw [frameOf, List.getElem?_append_right (by omega), hlen, Nat.add_sub_cancel_left]

/-- What the CRC covers is what the frame holds there (R91). -/
theorem frameOf_covered (hs : a.toNat + payload.length ≤ p.scramble.length) :
    ((frameOf p addr a crcen payload).drop (fillerLen a)).take (a.toNat + payload.length) = airBytes p addr a payload := by
  rw [frameOf, List.append_assoc, List.drop_left' (fillerField_length a), List.take_left' (airBytes_length addr hs)]

theorem frameOf_addressByte {i : Nat} (hs : a.toNat + payload.length ≤ p.scramble.length) (hi : i < a.toNat) :
    ∃ x k, addr.toList[a.toNat - 1 - i]? = some x ∧ p.scramble[i]? = some k ∧
      (frameOf p addr a crcen payload)[fillerLen a + i]? = some (x ^^^ k) := by
  have hx : a.toNat - 1 - i < addr.toList.length := by
    have := addrLen_bounds a
    rw [bytes5_length, Config.addrBytes]
    omega
  have hk : i < p.scramble.length := by omega
  refine ⟨_, _, List.getElem?_eq_getElem hx, List.getElem?_eq_getElem hk, ?_⟩
  rw [frameOf_air hs (by omega)]
  refine airBytes_getElem? ?_ (List.getElem?_eq_getElem hk)
  rw [List.getElem?_append_left (by simpa using hi), onAirAddress_getElem? hi, List.getElem?_eq_getElem hx]

theorem frameOf_payloadByte {j : Nat} (hs : a.toNat + payload.length ≤ p.scramble.length) (hj : j < payload.length) :
    ∃ x k, payload[j]? = some x ∧ p.scramble[a.toNat + j]? = some k ∧
      (frameOf p addr a crcen payload)[fillerLen a + a.toNat + j]? = some (bitReverse x ^^^ k) := by
  have hk : a.toNat + j < p.scramble.length := by omega
  refine ⟨_, _, List.getElem?_eq_getElem hj, List.getElem?_eq_getElem hk, ?_⟩
  rw [Nat.add_assoc, frameOf_air hs (by omega)]
  refine airBytes_getElem? ?_ (List.getElem?_eq_getElem hk)
  rw [List.getElem?_append_right (by simp), onAirAddress_length, Nat.add_sub_cancel_left, onAirPayload, List.getElem?_map,
    List.getElem?_eq_getElem hj, Option.map_some]

/-- The two CRC bytes, high byte first, of the run over what the frame holds (R91, R34 (a)). -/
theorem frameOf_crcBytes (hs : sizesOk p a true payload.length) :
    ∃ x v, p.xorout[a.toNat - 3 + payload.length]? = some x ∧
      v = crcSeq (((frameOf p addr a true payload).drop (fillerLen a)).take (a.toNat + payload.length)) ^^^ x ∧
      (frameOf p addr a true payload)[fillerLen a + a.toNat + payload.length]? = some (v.extractLsb' 8 8) ∧
      (frameOf p addr a true payload)[fillerLen a + a.toNat + payload.length + 1]? = some (v.extractLsb' 0 8) := by
  obtain ⟨htable, hpair, -⟩ := hs
  have hx := List.getElem?_eq_getElem hpair
  refine ⟨_, _, hx, rfl, ?_, ?_⟩
  · rw [frameOf_covered htable]
    have := frameOf_trailer (crcen := true) (addr := addr) (i := 0) htable
    rw [Nat.add_zero] at this
    rw [this]
    simp only [crcField, romX, hx, if_true]
    rfl
  · rw [frameOf_covered htable, frameOf_trailer htable]
    simp only [crcField, romX, hx, if_true]
    rfl

end

/-- Settles O26: the frame handed over is `frameOf`, whose layout the lemmas above give. -/
theorem sendHandsTheWholeFrameToTheRadio : Obligations.SendHandsTheWholeFrameToTheRadio := by
  intro s payload addr a f c hp ha hl hf hc htable hpair hfit hn
  obtain rfl : f = fillerLen a := hf
  obtain rfl : c = crcTrailerLen s.crcen := hc
  have hs : sizesOk config a s.crcen payload.length := ⟨htable, hpair, hfit⟩
  obtain ⟨m, hr, ⟨ok, he, -, hok⟩ | ⟨-, hnever⟩⟩ := sendUnder_admitted hp ha hl hs
  · refine ⟨_, ok, frameOf config addr a s.crcen payload, he, hok, frameOf_length addr hs, frameOf_filler,
      fun i hi => frameOf_addressByte htable hi, fun j hj => frameOf_payloadByte htable hj, fun hcrc => ?_, hr, rfl⟩
    rw [hcrc] at hs ⊢
    exact frameOf_crcBytes hs
  · exact absurd hnever hn

/-! ### What the frame depends on and determines -/

section
variable {p : Config.Params} {addr addr' : Bytes5} {a : AddrLen} {payload payload' : List Byte}

/-- A SEND that handed a frame over was admitted with sizes that pass, and the frame is `frameOf`. -/
theorem frame_of_sendUnder {s t : State} {frame : List Byte} {ok : Bool} (ha : s.addr = some addr) (hl : s.alen = some a)
    (h : sendUnder p payload s = .next t) (hlog : t.radioLog = s.radioLog ++ [.write frame ok]) :
    sizesOk p a s.crcen payload.length ∧ frame = frameOf p addr a s.crcen payload := by
  have unrefused (st : Status) : sendUnder p payload s ≠ .next (respond st [] s) := fun hr => by
    cases hr.symm.trans h
    simp at hlog
  cases hp : s.phase with
  | failed => exact absurd (sendUnder_failed hp) (unrefused _)
  | uninit => exact absurd (sendUnder_unconfigured (.inl hp)) (unrefused _)
  | inited => exact absurd (sendUnder_unconfigured (.inr hp)) (unrefused _)
  | ready =>
    by_cases hs : sizesOk p a s.crcen payload.length
    · obtain ⟨m, -, ⟨ok', he, -⟩ | ⟨he, -⟩⟩ := sendUnder_admitted hp ha hl hs
      · cases he.symm.trans h
        have := List.append_cancel_left hlog
        simp only [List.cons.injEq, RadioEvent.write.injEq] at this
        exact ⟨hs, this.1.1.symm⟩
      · cases he.symm.trans h
    · exact absurd (sendUnder_unsupported hp hl hs) (unrefused _)

/-- Only the address bytes on air enter the frame (R95). -/
theorem frameOf_congr {crcen : Bool} (h : addr.toList.take a.toNat = addr'.toList.take a.toNat) :
    frameOf p addr a crcen payload = frameOf p addr' a crcen payload := by
  simp only [frameOf, crcField, airBytes, onAirAddress, h]

/-- Whitening with one run of entries keeps sequences of one length apart (R65). -/
theorem zipWith_xor_inj {d e ks : List Byte} (hlen : d.length = e.length) (hk : d.length ≤ ks.length)
    (h : List.zipWith (· ^^^ ·) d ks = List.zipWith (· ^^^ ·) e ks) : d = e := by
  induction d generalizing e ks with
  | nil => exact (List.length_eq_zero_iff.1 hlen.symm).symm
  | cons x d ih =>
    cases e with
    | nil => cases hlen
    | cons y e =>
      cases ks with
      | nil => cases hk
      | cons k ks =>
        obtain ⟨hx, ht⟩ := List.cons.inj h
        rw [(BitVec.xor_left_inj k).1 hx, ih (Nat.succ.inj hlen) (Nat.le_of_succ_le_succ hk) ht]

/-- Equal frames of one length were made of equal address bytes and equal payloads (R97). -/
theorem frameOf_inj {crcen : Bool} (hlen : payload.length = payload'.length)
    (hs : a.toNat + payload.length ≤ p.scramble.length)
    (h : frameOf p addr a crcen payload = frameOf p addr' a crcen payload') :
    addr.toList.take a.toNat = addr'.toList.take a.toNat ∧ payload = payload' := by
  have hair : airBytes p addr a payload = airBytes p addr' a payload' := by
    rw [frameOf, frameOf, List.append_assoc, List.append_assoc] at h
    refine List.append_inj_left (List.append_cancel_left h) ?_
    rw [airBytes_length addr hs, airBytes_length addr' (hlen ▸ hs), hlen]
  have hplain := zipWith_xor_inj (by simp [hlen]) (by simpa using hs) hair
  obtain ⟨haddr, hpay⟩ := List.append_inj hplain (by simp)
  exact ⟨List.reverse_injective haddr, List.map_injective_iff.2 bitReverse_involutive.injective hpay⟩

end

/-- Settles O29: both frames are `frameOf`, and `frameOf_congr`. -/
theorem theFrameDependsOnlyOnAddressLengthSwitchAndPayload :
    Obligations.TheFrameDependsOnlyOnAddressLengthSwitchAndPayload := by
  intro p payload s s' t t' addr addr' a frame frame' ok ok' ha ha' hl hl' hc htake h hlog h' hlog'
  rw [(frame_of_sendUnder ha hl h hlog).2, (frame_of_sendUnder ha' hl' h' hlog').2, hc]
  exact frameOf_congr htake

/-- Settles O30: both SENDs handed over `frameOf`, and `frameOf_inj`. -/
theorem theFrameDeterminesAddressAndPayload : Obligations.TheFrameDeterminesAddressAndPayload := by
  intro p payload payload' s s' t t' addr addr' a frame ok ok' ha ha' hl hl' hc hlen h hlog h' hlog'
  obtain ⟨hs, hf⟩ := frame_of_sendUnder ha hl h hlog
  obtain ⟨-, hf'⟩ := frame_of_sendUnder ha' hl' h' hlog'
  rw [hf, hc] at hf'
  exact frameOf_inj hlen hs.1 hf'

end Sys2Proof.Machine

/-! PROOFS. Reset and the step (70_reset_and_hazards.md R130; 30_encoding.md R45, R52), INIT, CFGADDR, SETCRC and RDCNT
(42_framer.md R81 to R85, 43_system.md R100 to R104), and the radio calls that never return (60_exceptions.md R125). The
statements O1 to O5, O21 to O25, O31 and O33. -/

namespace Sys2Proof.Machine

/-! ### Reset and the step -/

/-- Settles O1. -/
theorem resetLeavesTheStatedValues : Obligations.ResetLeavesTheStatedValues :=
  ⟨rfl, rfl, rfl, rfl, rfl, rfl, readCell_nil, rfl, rfl⟩

/-- Settles O2, by `step_reset`. -/
theorem resetEventClearsTheBlock : Obligations.ResetEventClearsTheBlock := fun _ _ h => step_reset h

/-- Settles O3, by `step_command`. -/
theorem stepRunsTheDecodedCommand : Obligations.StepRunsTheDecodedCommand := fun _ _ _ _ h hd => step_command h hd

/-- A table word is read by decoding the message it stands for. -/
theorem decode_of_decodeTableWord {nbits w : Nat} {i : Instr} (h : decodeTableWord nbits w = some i) :
    decode (tableMessage nbits w) = .ok i := by
  unfold decodeTableWord at h
  split at h
  · cases h; assumption
  · cases h

/-- Settles O4: the message placed is used up again by the step that runs it. -/
theorem theNextStepRunsTheWordPlaced : Obligations.TheNextStepRunsTheWordPlaced := fun s nbits w _ h =>
  step_command (s := s.withFetchWord nbits w) rfl (decode_of_decodeTableWord h)

/-- Settles O5: a message that decodes to no command has a reason, and `step_illegal`. -/
theorem stepAnswersIllegalToAMessageThatIsNoCommand : Obligations.StepAnswersIllegalToAMessageThatIsNoCommand := by
  intro s msg rest hin hno
  cases hd : decode msg with
  | error e => exact step_illegal hin hd
  | ok i => exact absurd hd (hno i)

/-! ### INIT -/

section
variable {p : Config.Params} {s : State}

theorem exec_init (s : State) : exec .init s = initUnder config s := rfl

/-- INIT in UNINIT once `begin` has returned (R101, R102, R125). -/
theorem initUnder_answered {ok : Bool} (hp : s.phase = .uninit) (ha : askRadio s = .ok (ok, answered s)) :
    initUnder p s = if RadioReply.never ∈ s.radioScript.tail.take 7 ∧ ok = true then .fault .radioNeverReturns
      else .next (afterBegin p ok (answered s)) := by
  have hcalls : (bringUpCalls p).length = 7 := rfl
  simp only [initUnder, hp, ha, hcalls, Bool.and_eq_true, radioHangs_iff]
  rfl

theorem initUnder_hung (hp : s.phase = .uninit) (h : s.radioScript.head? = some .never) :
    initUnder p s = .fault .radioNeverReturns := by
  obtain ⟨b, -, hn, -⟩ | ⟨he, -⟩ := askRadio_cases s
  · exact absurd h hn
  · simp only [initUnder, hp, he]

theorem initUnder_refused_failed (hp : s.phase = .failed) : initUnder p s = .next (respond .failed [] s) := by
  simp only [initUnder, hp, refuse_eq_respond]

theorem initUnder_refused_badPhase (hp : s.phase = .inited ∨ s.phase = .ready) :
    initUnder p s = .next (respond .badPhase [] s) := by
  obtain hp | hp := hp <;> simp only [initUnder, hp, refuse_eq_respond]

end

/-- Settles O21: `begin` returns by the premise, and after true the seven calls do. -/
theorem initBringsUpTheRadioOrMarksItFailed : Obligations.InitBringsUpTheRadioOrMarksItFailed := by
  intro s hp hret
  have hhead : s.radioScript.head? ≠ some .never := by
    rintro hn
    obtain h | h := hret
    · exact h (mem_take_of_head? hn)
    · simp [hn] at h
  obtain ⟨ok, ha, hok⟩ := askRadio_answers s hhead
  refine ⟨ok, hok, ?_⟩
  rw [exec_init, initUnder_answered hp ha]
  cases ok with
  | false => rw [if_neg (by simp), afterBegin_false]; rfl
  | true =>
    have h8 : .never ∉ s.radioScript.take 8 := hret.resolve_right fun h => by cases hok _ h
    rw [if_neg fun h => h8 (mem_take_succ_of_tail h.1), afterBegin_true]
    rfl

/-- Settles O22. -/
theorem aSecondInitIsRefused : Obligations.ASecondInitIsRefused :=
  fun _ => ⟨initUnder_refused_failed, initUnder_refused_badPhase⟩

/-! ### CFGADDR and SETCRC -/

section
variable {p : Config.Params} {s : State} {a : Bytes5} {alen : Byte}

theorem exec_cfgaddr (a : Bytes5) (alen : Byte) (s : State) : exec (.cfgaddr a alen) s = cfgaddrUnder config a alen s := rfl

/-- CFGADDR in INITED with a legal length (R82, R125). -/
theorem cfgaddrUnder_inited {n : AddrLen} (hp : s.phase = .inited) (hn : alen.toNat = n.toNat) :
    cfgaddrUnder p a alen s = if RadioReply.never ∈ s.radioScript.take 2 then .fault .radioNeverReturns
      else .next (respond .ok [] (storeAddress p a n s)) := by
  have hcalls : (addressCalls p n).length = 2 := rfl
  simp only [cfgaddrUnder, hp, addrLenOf_toNat n hn, hcalls, radioHangs_iff]

theorem cfgaddrUnder_refused_failed (hp : s.phase = .failed) : cfgaddrUnder p a alen s = .next (respond .failed [] s) := by
  simp only [cfgaddrUnder, hp, refuse_eq_respond]

theorem cfgaddrUnder_refused_badPhase (hp : s.phase = .uninit ∨ s.phase = .ready) :
    cfgaddrUnder p a alen s = .next (respond .badPhase [] s) := by
  obtain hp | hp := hp <;> simp only [cfgaddrUnder, hp, refuse_eq_respond]

theorem cfgaddrUnder_refused_cfgErr (hp : s.phase = .inited) (h : alen.toNat < 3 ∨ 5 < alen.toNat) :
    cfgaddrUnder p a alen s = .next (respond .cfgErr [] s) := by
  simp only [cfgaddrUnder, hp, addrLenOf_none.2 h, refuse_eq_respond]

end

/-- Settles O23: the two calls return by the premise, so `cfgaddrUnder_inited` stores the address. -/
theorem cfgaddrStoresTheAddress : Obligations.CfgaddrStoresTheAddress := by
  intro s a alen n hp hn hret
  rw [exec_cfgaddr, cfgaddrUnder_inited hp hn, if_neg hret, respond_storeAddress]
  rfl

/-- Settles O24. -/
theorem cfgaddrIsRefusedOutOfPhaseOrRange : Obligations.CfgaddrIsRefusedOutOfPhaseOrRange :=
  fun _ _ _ => ⟨cfgaddrUnder_refused_failed, cfgaddrUnder_refused_badPhase, cfgaddrUnder_refused_cfgErr⟩

theorem exec_setcrc (e : Byte) (s : State) : exec (.setcrc e) s =
    .next (if 1 < e.toNat then respond .illegal [] s else respond .ok [] (setCrcen (e.toNat == 1) s)) := rfl

/-- Settles O25: operands 0 and 1 pass the check of `exec_setcrc`, all others do not. -/
theorem setcrcWritesTheCrcSwitch : Obligations.SetcrcWritesTheCrcSwitch := by
  refine fun s => ⟨rfl, rfl, fun e he => ?_⟩
  rw [exec_setcrc, if_pos he]
  rfl

/-! ### The radio calls that never return -/

/-- Settles O31: `begin` hangs, or it answered true and one of the seven calls after it hangs; one of CFGADDR's two calls hangs;
or the `write` of a SEND does. -/
theorem aRadioCallThatNeverReturnsStopsTheCommand : Obligations.ARadioCallThatNeverReturnsStopsTheCommand := by
  refine fun s => ⟨fun hp hn hfalse => ?_, fun addr alen hp h3 h5 hn => ?_, fun payload addr a hp ha hl hs hn => ?_⟩
  · by_cases hhead : s.radioScript.head? = some .never
    · exact initUnder_hung hp hhead
    · obtain ⟨ok, hans, hok⟩ := askRadio_answers s hhead
      have htail : .never ∈ s.radioScript.tail.take 7 := by
        by_contra h
        exact not_mem_take_succ hhead h hn
      have htrue : ok = true := by
        match h : s.radioScript with
        | [] => simp [h] at hn
        | .never :: _ => simp [h] at hhead
        | .answer true :: _ => exact hok true (by simp [h])
        | .answer false :: _ => simp [h] at hfalse
      rw [exec_init, initUnder_answered hp hans, if_pos ⟨htail, htrue⟩]
  · obtain ⟨n, hlen⟩ := exists_addrLen h3 h5
    rw [exec_cfgaddr, cfgaddrUnder_inited hp hlen, if_pos hn]
  · obtain ⟨m, -, ⟨ok, -, hret, -⟩ | ⟨he, -⟩⟩ := sendUnder_admitted hp ha hl hs
    · exact absurd hn hret
    · exact he

/-! ### RDCNT -/

theorem exec_rdcnt (s : State) : exec .rdcnt s = .next (respond .ok (bigEndian32 s.pktcnt) s) := rfl

/-- Four bytes, most significant first, are the value (R34 (d)). -/
theorem toNat_bigEndian32 (v : BitVec 32) : v.toNat = (v.extractLsb' 24 8).toNat * 2 ^ 24 +
    (v.extractLsb' 16 8).toNat * 2 ^ 16 + (v.extractLsb' 8 8).toNat * 2 ^ 8 + (v.extractLsb' 0 8).toNat := by
  simp only [BitVec.extractLsb'_toNat, Nat.shiftRight_eq_div_pow]
  omega

/-- Settles O33: the bytes are `bigEndian32`'s. -/
theorem rdcntAnswersTheCounter : Obligations.RdcntAnswersTheCounter :=
  fun s => ⟨_, _, _, _, exec_rdcnt s, toNat_bigEndian32 s.pktcnt⟩

end Sys2Proof.Machine
